-- ==== Sys2Proof/Word.lean ====
section
/-! DEFINITION. The 8-bit column, the glyph and the font table (spec/10_state.md R20, R25). -/

namespace Sys2Proof

/-- `u8`: a column, an operand byte, a payload byte (R20, 00_scope.md section 5.1). -/
abbrev Byte := BitVec 8

/-- A glyph: a finite sequence of 8-bit columns, width not fixed and possibly 0 (R25). -/
abbrev Glyph := List Byte

/-- A font table: a partial map from character code to glyph (R25), written as its list of entries.
A code in no entry is absent. The canonical list of a map has its codes strictly increasing (R85). -/
abbrev Font := List (Nat × Glyph)

end Sys2Proof
end

