-- ==== Sys2Proof/Config.lean ====
section
/-! DEFINITION. The constants the source fixes (spec/00_scope.md R6), the parameters no source fixes
(R7) and the free values of the model. -/

namespace Sys2Proof

/-! ### Constants (R6) -/

/-- Columns in the display and in the window. -/
abbrev ncols : Nat := 11
/-- Rows in the display, the meaningful low bits of a column. -/
abbrev nrows : Nat := 5
/-- Least framebuffer length. -/
abbrev minLen : Nat := 11
/-- The frame terminator. -/
abbrev term : Byte := 0xFF
/-- Bytes in a frame. -/
abbrev frameLen : Nat := 12
/-- The error count at which the notice is emitted. -/
abbrev noticeAt : Nat := 10
/-- Zero columns written for a space or a missing glyph. -/
abbrev blankW : Nat := 3
/-- Zero columns written after each glyph. -/
abbrev spacerW : Nat := 1
/-- Multiplier of the normalised sample. -/
abbrev graphScale : Nat := 5

/-- The transport's answer to one bus write (R180, decision D23). -/
inductive BusResult where
  | ok
  | fail
deriving DecidableEq, Repr, Inhabited

/-- The three registers of the display controller, by name (20_memory.md R58). -/
inductive BusReg where
  | modeSet
  | brightnessSet
  | draw
deriving DecidableEq, Repr

/-- The parameters of R7, one field each: the arguments of the model. `none` in the last two is the
spec's default, unbounded (decision D20). The packet word width `W` is 32 throughout (R82). -/
structure Config where
  /-- `DEV_ADDR` -/
  devAddr : BitVec 7
  /-- `REG_MODE` -/
  regMode : Nat
  /-- `REG_BRIGHT` -/
  regBright : Nat
  /-- `REG_DRAW` -/
  regDraw : Nat
  /-- `MODE_5X11` -/
  mode5x11 : Byte
  /-- `BUS_CHANNEL` -/
  busChannel : Nat
  /-- `FONT0` -/
  font0 : Font
  /-- `SPACE_CODE` -/
  spaceCode : Nat
  /-- `BUF_CAP` -/
  bufCap : Option Nat
  /-- `ERR_MAX` -/
  errMax : Option Nat
deriving DecidableEq, Repr

/-- What the spec asks of the parameters: the three register numbers pairwise different (R7), a
finite capacity at least the least length (R38), a finite counter at least 10 (R180). -/
abbrev Config.wf (c : Config) : Prop :=
  (c.regMode ≠ c.regBright ∧ c.regMode ≠ c.regDraw ∧ c.regBright ≠ c.regDraw)
    ∧ (∀ n ∈ c.bufCap, minLen ≤ n) ∧ (∀ n ∈ c.errMax, noticeAt ≤ n)

/-! ### Open parameters (decisions D17, D19): free constants, without a value -/

/-- `DEV_ADDR` of the block at hand. -/
opaque Config.openDevAddr : BitVec 7
/-- The register numbers of the block at hand: the numbers of three names, pairwise different. -/
opaque Config.openRegNumbering : Equiv.Perm Nat
/-- `MODE_5X11` of the block at hand. -/
opaque Config.openMode : Byte
/-- `BUS_CHANNEL` of the block at hand. -/
opaque Config.openChannel : Nat
/-- `FONT0` of the block at hand, as a list of entries. -/
opaque Config.openFont : Font

/-- The free value of a bus write's answer (R180, decision D23): the answer to the `n`-th write that
the environment has not fixed in `State.answers`. Nothing constrains it. -/
opaque Config.busAnswer : Nat → BusResult

/-- The parameters of the block at hand: the open ones free, the others at the spec's defaults
(`SPACE_CODE` 32, decision D18; `BUF_CAP` and `ERR_MAX` unbounded, decision D20). -/
def Config.initial : Config where
  devAddr := Config.openDevAddr
  regMode := Config.openRegNumbering 0
  regBright := Config.openRegNumbering 1
  regDraw := Config.openRegNumbering 2
  mode5x11 := Config.openMode
  busChannel := Config.openChannel
  font0 := Config.openFont
  spaceCode := 32
  bufCap := none
  errMax := none

end Sys2Proof
end

