-- ==== Sys2Proof/Syntax.lean ====
section
/-! DEFINITION. The command set at the abstract level (spec/30_encoding.md R80, R81), the mnemonics and
formats of the packet (R83, R84), and the reasons a packet is invalid (R87). -/

namespace Sys2Proof

/-- The 16 commands with their abstract operands (R80). Operands are mathematical values: a packet
carries only part of them (R2, R82). `setpix`'s bit number is 0 to 7 by its type (decision D6). In
`graph`, `none` is `auto` and the samples are exact rationals (R165). -/
inductive Instr where
  /-- `INIT` (R182) -/
  | init
  /-- `SETMODE m` (R183) -/
  | setmode (m : Byte)
  /-- `SETBRT b` (R184) -/
  | setbrt (b : Byte)
  /-- `WRSTR text, start_x` (R151) -/
  | wrstr (text : List Nat) (startX : Nat)
  /-- `GRAPH values, low, high` (R168) -/
  | graph (values : List Rat) (low high : Option Rat)
  /-- `SETCOL x, v` (R111) -/
  | setcol (x : Nat) (v : Byte)
  /-- `SETPIX x, y, v` (R112) -/
  | setpix (x : Nat) (y : Fin 8) (v : Bool)
  /-- `SETBUF cols` (R114) -/
  | setbuf (cols : List Byte)
  /-- `BUFLEN` (R115) -/
  | buflen
  /-- `SCROLL d` (R134) -/
  | scroll (d : Int)
  /-- `SCROLLTO p` (R135) -/
  | scrollto (p : Int)
  /-- `CLEAR` (R113) -/
  | clear
  /-- `LOADFONT f` (R154) -/
  | loadfont (f : Font)
  /-- `IOERR` (R186) -/
  | ioerr
  /-- `UPDATE` (R185) -/
  | update
  /-- `SETROT r` (R136) -/
  | setrot (r : Bool)
deriving DecidableEq, Repr

/-! ### Short forms (R81): abbreviations, expanded before anything runs -/

/-- `WRSTR text` -/
abbrev Instr.wrstrShort (text : List Nat) : Instr := .wrstr text 0
/-- `GRAPH values` -/
abbrev Instr.graphShort (values : List Rat) : Instr := .graph values none none
/-- `GRAPH values, low` -/
abbrev Instr.graphLow (values : List Rat) (low : Rat) : Instr := .graph values (some low) none

/-- The mnemonics (R84). -/
inductive Op where
  | init | setmode | setbrt | wrstr | graph | setcol | setpix | setbuf
  | buflen | scroll | scrollto | clear | loadfont | ioerr | update | setrot
deriving DecidableEq, Repr

/-- The nine packet formats (R83). -/
inductive Format where
  | f0 | fb | fw | fxv | fxyv | fbuf | fstr | fgr | ffnt
deriving DecidableEq, Repr

/-- The mnemonic of a command. -/
def Instr.op : Instr → Op
  | .init => .init
  | .setmode _ => .setmode
  | .setbrt _ => .setbrt
  | .wrstr _ _ => .wrstr
  | .graph _ _ _ => .graph
  | .setcol _ _ => .setcol
  | .setpix _ _ _ => .setpix
  | .setbuf _ => .setbuf
  | .buflen => .buflen
  | .scroll _ => .scroll
  | .scrollto _ => .scrollto
  | .clear => .clear
  | .loadfont _ => .loadfont
  | .ioerr => .ioerr
  | .update => .update
  | .setrot _ => .setrot

/-- Why a packet is invalid: the cases (a) to (h) of R87. -/
inductive PacketError where
  /-- (a) an empty packet -/
  | empty
  /-- (b) a reserved opcode -/
  | reservedOpcode (op : Byte)
  /-- (c) shorter or longer than its format says -/
  | wrongLength
  /-- (d) `SETROT` with `a ≥ 2` -/
  | reservedRotate (a : Byte)
  /-- (e) `SETPIX` with `y ≥ 8` -/
  | pixelRow (y : Byte)
  /-- (f) `GRAPH` with a reserved flag bit set -/
  | reservedGraphFlags (flags : Byte)
  /-- (g) `LOADFONT` with codes not strictly increasing -/
  | fontOrder
  /-- (h) `SETBUF` with `n < 11` -/
  | shortBuffer
deriving DecidableEq, Repr

end Sys2Proof
end

