-- ==== Sys2Proof/WellFormed.lean ====
section
/-! DEFINITION. Which abstract commands a packet can carry (spec/30_encoding.md R82, R85, R87). -/

namespace Sys2Proof

/-- The codes of the entries strictly increase: the canonical list of a font table (R85). -/
abbrev fontOrdered (f : Font) : Prop := f.Pairwise fun a b => a.1 < b.1

/-- `v` fits an unsigned 32-bit field. -/
def fitsU32 (v : Nat) : Bool := decide (v < 2 ^ 32)

/-- `v` fits a signed 32-bit field. -/
def fitsS32 (v : Int) : Bool := decide (-2 ^ 31 ≤ v ∧ v < 2 ^ 31)

/-- A sample fits a signed 32-bit field: it is an integer and in range. -/
def fitsSample (q : Rat) : Bool := decide (q.den = 1) && fitsS32 q.num

/-- A font entry fits the packet: a `u32` code and a `u8` width. -/
def fitsEntry (e : Nat × Glyph) : Bool := fitsU32 e.1 && decide (e.2.length < 256)

/-- The command has a packet: every operand in its field's range, counts below `2^32`, `SETBUF` of at
least 11 columns (R87 (h)), font codes strictly increasing (R87 (g)). -/
def Instr.wellFormed : Instr → Bool
  | .init => true
  | .setmode _ => true
  | .setbrt _ => true
  | .wrstr text startX => fitsU32 startX && fitsU32 text.length && text.all fitsU32
  | .graph values low high =>
      fitsU32 values.length && values.all fitsSample && low.all fitsSample && high.all fitsSample
  | .setcol x _ => fitsU32 x
  | .setpix x _ _ => fitsU32 x
  | .setbuf cols => decide (minLen ≤ cols.length) && fitsU32 cols.length
  | .buflen => true
  | .scroll d => fitsS32 d
  | .scrollto p => fitsS32 p
  | .clear => true
  | .loadfont f => fitsU32 f.length && f.all fitsEntry && decide (fontOrdered f)
  | .ioerr => true
  | .update => true
  | .setrot _ => true

end Sys2Proof
end

