-- ==== Sys2Proof/Machine/Font.lean ====
section
/-! DEFINITION. The font table as a map (spec/10_state.md R25): lookup, and the canonical list of a map
given as any list of entries. -/

namespace Sys2Proof.Machine

/-- `FONT(ch)`: the glyph, or absent (R150). -/
def fontLookup : Font → Nat → Option Glyph
  | [], _ => none
  | (c, g) :: f, ch => if c = ch then some g else fontLookup f ch

/-- The map `f` with `c` sent to `g`. -/
def fontInsert (c : Nat) (g : Glyph) : Font → Font
  | [] => [(c, g)]
  | (k, h) :: f =>
      if c < k then (c, g) :: (k, h) :: f
      else if c = k then (c, g) :: f
      else (k, h) :: fontInsert c g f

/-- The canonical list of the map that a list of entries denotes, codes strictly increasing. Where a
code stands in two entries, which no font table and no packet has (R85), the first counts. -/
def fontOfEntries : Font → Font
  | [] => []
  | (c, g) :: f => fontInsert c g (fontOfEntries f)

end Sys2Proof.Machine
end

