-- ==== Sys2Proof/Machine/State.lean ====
section
/-! DEFINITION. The state of the block (spec/10_state.md), its ports as plain data, its faults and
refusals, and its state right after construction (R35). -/

namespace Sys2Proof.Machine

/-- The column memory `BUF` (R20, R50): its length `LEN` (R21) and its cells, column index and value,
in canonical form: indices strictly rising, no entry of value 0. A column below `len` that is not
listed is 0, which is what construction and growth leave in it (R35, R52). -/
structure Memory where
  len : Nat
  cells : List Host.Cell
deriving DecidableEq, Repr

/-- The canonical form: indices strictly rising, every entry non-zero and below the length. -/
abbrev Memory.wf (m : Memory) : Prop :=
  (m.cells.Pairwise fun a b => a.1 < b.1) ∧ ∀ c ∈ m.cells, c.2 ≠ 0 ∧ c.1 < m.len

/-- One event of the trace (R32). -/
inductive Event where
  /-- `Open(channel)` -/
  | opened (channel : Nat)
  /-- `Write(addr, reg, bytes, result)` -/
  | write (addr : BitVec 7) (reg : Nat) (bytes : List Byte) (result : BusResult)
  /-- `Resp(v)` -/
  | resp (v : Nat)
  /-- `Notice` -/
  | notice
deriving DecidableEq, Repr

/-- What the host hands to the command port (R5): a byte packet (R82) or a command at the abstract
level (R2), whose operands may be wider than a packet's. -/
inductive Submission where
  | packet (bytes : List Byte)
  | command (i : Instr)
deriving DecidableEq, Repr

/-- The state: the spec's registers and memories, the trace, the parameters, and the outside world's
side of the ports as plain data. -/
structure State where
  /-- `BUF`, the framebuffer, and `LEN` (R20, R21) -/
  buf : Memory
  /-- `OFF`, the offset (R22) -/
  off : Nat
  /-- `ROT`, the rotate flag (R23) -/
  rot : Bool
  /-- `ERR`, the error count (R24) -/
  err : Nat
  /-- `FONT`, the font table (R25) -/
  font : Font
  /-- `BUSOPEN` (R26) -/
  busOpen : Bool
  /-- the trace, oldest event first (R32) -/
  trace : List Event
  /-- the parameters of R7; no step changes them -/
  cfg : Config
  /-- the model's own: what the host has handed over and the block has not taken, next first (R5) -/
  port : List Submission
  /-- the model's own: the transport's answers to the next writes, where the environment has fixed
  them (R180) -/
  answers : List BusResult
  /-- the model's own: how many writes the free value `Config.busAnswer` has answered (R180) -/
  freeCount : Nat
deriving DecidableEq, Repr

/-- Why the machine stops. -/
inductive Fault where
  /-- Raised by a push in a state with `LEN < 11` or `OFF ≥ LEN`, where R130 leaves the window
  undefined; no run reaches such a state (R33). Safe: the model stops. -/
  | windowUndefined
deriving DecidableEq, Repr

/-- Why a command gets no next state: the refusals of R204. -/
inductive Refusal where
  /-- Raised by `exec` for an instruction without a meaning; no arm uses it. Safe: the model stops. -/
  | notModelled (mnemonic : String)
  /-- `invalid_packet`, raised by the step when the decoder refuses the packet (R87). Safe: the spec
  gives the packet no meaning. -/
  | invalidPacket (why : PacketError)
  /-- `short_buffer`, raised by `SETBUF` of fewer than 11 columns (R114). Safe: the spec gives it no
  meaning. -/
  | shortBuffer
  /-- `bus_not_open`, raised by a bus-writing command other than `INIT` while `BUSOPEN = 0` (R180).
  Safe: the spec gives it no meaning. -/
  | busNotOpen
  /-- `capacity`, raised by a command that would make `LEN` exceed a finite `BUF_CAP` (R63). Safe: the
  spec gives it no meaning. -/
  | capacity
deriving DecidableEq, Repr

/-- Right after construction (R35): 11 zero columns, `OFF`, `ERR`, `ROT` and `BUSOPEN` 0, the font
`FONT0`, an empty trace; the outside world has handed over and fixed nothing yet. -/
def State.reset : State where
  buf := { len := minLen, cells := [] }
  off := 0
  rot := false
  err := 0
  font := fontOfEntries Config.initial.font0
  busOpen := false
  trace := []
  cfg := Config.initial
  port := []
  answers := []
  freeCount := 0

end Sys2Proof.Machine
end

