-- ==== Sys2Proof/Machine/Ops.lean ====
section
/-! DEFINITION. The named operations over the column memory, the registers, the trace and the bus
(spec/20_memory.md, 41_window.md section 1, 44_driver.md section 1). -/

namespace Sys2Proof.Machine

/-- The three outcomes of a command. -/
abbrev Outcome := Host.Outcome State Fault Refusal

/-! ### Column memory (R50 to R56) -/

/-- The value listed at an index, 0 where nothing is listed. -/
def cellsRead : List Host.Cell → Nat → Byte
  | [], _ => 0
  | (k, w) :: cells, i => if k = i then w else cellsRead cells i

/-- The cells with value `v` at index `i`, in canonical form. -/
def cellsWrite (i : Nat) (v : Byte) : List Host.Cell → List Host.Cell
  | [] => if v = 0 then [] else [(i, v)]
  | (k, w) :: cells =>
      if k < i then (k, w) :: cellsWrite i v cells
      else if k = i then (if v = 0 then cells else (i, v) :: cells)
      else (if v = 0 then (k, w) :: cells else (i, v) :: (k, w) :: cells)

/-- The cells of a sequence of columns from index `i` on. -/
def cellsOf (i : Nat) : List Byte → List Host.Cell
  | [] => []
  | v :: cols => if v = 0 then cellsOf (i + 1) cols else (i, v) :: cellsOf (i + 1) cols

/-- `BUF[i]`; the rules read only below `LEN` (R54). -/
def Memory.read (m : Memory) (i : Nat) : Byte := cellsRead m.cells i

/-- `MemRead(i, n)`: the columns `BUF[i] … BUF[i+n-1]`. -/
def Memory.slice (m : Memory) (i n : Nat) : List Byte := (List.range' i n).map m.read

/-- All of `BUF` as a sequence. -/
def Memory.columns (m : Memory) : List Byte := m.slice 0 m.len

/-- `Grow(x)`: zero columns appended until `LEN > x` (R52). -/
def Memory.grow (m : Memory) (x : Nat) : Memory := { m with len := max m.len (x + 1) }

/-- `BUF[x] <- v` for a column in range. -/
def Memory.write (m : Memory) (x : Nat) (v : Byte) : Memory :=
  { m with cells := cellsWrite x v m.cells }

/-- `SetCol(x, v)`: `Grow(x); BUF[x] <- v`, the body of SETCOL (R111), used by every column write that
is not a whole replacement (R53). -/
def Memory.setCol (m : Memory) (x : Nat) (v : Byte) : Memory := (m.grow x).write x v

/-- `SetCol` of consecutive columns from the cursor on, ascending (R59, R67 mode 2). -/
def Memory.setCols (m : Memory) (x : Nat) : List Byte → Memory
  | [] => m
  | v :: cols => Memory.setCols (m.setCol x v) (x + 1) cols

/-- `BUF <- s`: the whole sequence replaced (R53 (b)). -/
def Memory.ofColumns (cols : List Byte) : Memory := { len := cols.length, cells := cellsOf 0 cols }

/-- 11 zero columns (R35, R113, R182). -/
def Memory.blank : Memory := { len := minLen, cells := [] }

/-! ### Registers and trace -/

/-- `BUF <- m` -/
def State.setBuf (s : State) (m : Memory) : State := { s with buf := m }
/-- `OFF <- o` -/
def State.setOff (s : State) (o : Nat) : State := { s with off := o }
/-- `ROT <- r` -/
def State.setRot (s : State) (r : Bool) : State := { s with rot := r }
/-- `ERR <- n` -/
def State.setErr (s : State) (n : Nat) : State := { s with err := n }
/-- `FONT <- f` -/
def State.setFont (s : State) (f : Font) : State := { s with font := f }
/-- `BUSOPEN <- b` -/
def State.setBusOpen (s : State) (b : Bool) : State := { s with busOpen := b }
/-- One more event at the end of the trace (R32). -/
def State.emit (s : State) (e : Event) : State := { s with trace := s.trace ++ [e] }

/-- `Respond(v)`: one value on the response port (R88). -/
def State.respond (s : State) (v : Nat) : State := s.emit (.resp v)

/-- The bytes of a response on the port: one `u32`, little-endian, of `min(v, 2^32 - 1)` (R88). -/
def responseBytes (v : Nat) : List Byte :=
  let u := min v (2 ^ 32 - 1)
  [BitVec.ofNat 8 u, BitVec.ofNat 8 (u / 2 ^ 8), BitVec.ofNat 8 (u / 2 ^ 16),
    BitVec.ofNat 8 (u / 2 ^ 24)]

/-! ### Arithmetic (R8) and capacity (R63) -/

/-- `a mod L`, floored, for `L ≥ 1` (R8). -/
def floorMod (a : Int) (l : Nat) : Nat := (a % (l : Int)).toNat

/-- A buffer of `n` columns fits the capacity `BUF_CAP` (R63). -/
def fitsCap (c : Config) (n : Nat) : Bool :=
  match c.bufCap with
  | none => true
  | some cap => decide (n ≤ cap)

/-- `n` in the counter: itself, or stopped at a finite `ERR_MAX` (R180). -/
def saturateErr (c : Config) (n : Nat) : Nat :=
  match c.errMax with
  | none => n
  | some m => min n m

/-- The number of a display-controller register (R7, R58). -/
def regNumber (c : Config) : BusReg → Nat
  | .modeSet => c.regMode
  | .brightnessSet => c.regBright
  | .draw => c.regDraw

/-! ### Window, rotation, frame (R130 to R133) -/

/-- Where R130 defines the window: `LEN ≥ 11` and `0 ≤ OFF < LEN`. -/
abbrev State.windowDefined (s : State) : Prop := minLen ≤ s.buf.len ∧ s.off < s.buf.len

/-- `Window()` of a buffer and an offset (R130). -/
def windowOf (m : Memory) (off : Nat) : List Byte :=
  if off + ncols ≤ m.len then m.slice off ncols
  else m.slice off (m.len - off) ++ m.slice 0 (ncols - (m.len - off))

/-- `rotate5(c)` (R131): bit `k` moves to bit `4 - k`, bits 5 to 7 of the result are 0. -/
def rotate5 (c : Byte) : Byte :=
  (List.range nrows).foldl
    (fun r k => if c.getLsbD k then r ||| BitVec.ofNat 8 (2 ^ (nrows - 1 - k)) else r) 0

/-- Rotation of a window: reverse the order, mirror each column (R132). -/
def rotateWindow (w : List Byte) : List Byte := w.reverse.map rotate5

/-- `Frame()` (R133): the window, rotated when `ROT = 1`, and the terminator. -/
def State.frame (s : State) : List Byte :=
  let w := windowOf s.buf s.off
  (if s.rot then rotateWindow w else w) ++ [term]

/-! ### The bus (R180, R181) -/

/-- The transport's answer to the next write: the next one the environment has fixed, else the free
value (R180, decision D23). -/
def State.nextAnswer (s : State) : BusResult :=
  match s.answers with
  | r :: _ => r
  | [] => Config.busAnswer s.freeCount

/-- The state with that answer used up. -/
def State.dropAnswer (s : State) : State :=
  { s with
    answers := s.answers.tail
    freeCount := s.freeCount + (if s.answers.isEmpty then 1 else 0) }

/-- `TransportError` (R180, R201): counted, and the notice when the count has just become 10. This is
what stands in for taking an exception: no condition transfers control (R207). -/
def State.countFailure (s : State) : State :=
  let t := s.setErr (saturateErr s.cfg (s.err + 1))
  if s.err + 1 = noticeAt then t.emit .notice else t

/-- One write transaction on an open bus, with its accounting (R180). -/
def State.afterWrite (s : State) (reg : BusReg) (bytes : List Byte) : State :=
  let t := s.dropAnswer.emit
    (.write s.cfg.devAddr (regNumber s.cfg reg) bytes s.nextAnswer)
  match s.nextAnswer with
  | .ok => t
  | .fail => t.countFailure

/-- A bus-writing command: refused before anything changes while `BUSOPEN = 0` (R180, R206). -/
def whenOpen (s : State) (o : Outcome) : Outcome := if s.busOpen then o else .refused .busNotOpen

/-- A command that makes the buffer `n` columns long: refused before anything changes when that
exceeds a finite capacity (R63, R206). -/
def whenFits (s : State) (n : Nat) (o : Outcome) : Outcome :=
  if fitsCap s.cfg n then o else .refused .capacity

/-- `BusWrite(reg, bytes)` (R180). -/
def busWrite (reg : BusReg) (bytes : List Byte) (s : State) : Outcome :=
  whenOpen s (.next (s.afterWrite reg bytes))

/-- `Push()`: `BusWrite(REG_DRAW, Frame())` (R181), where the window is defined (R130). -/
def push (s : State) : Outcome :=
  whenOpen s
    (if s.windowDefined then .next (s.afterWrite .draw s.frame) else .fault .windowUndefined)

end Sys2Proof.Machine
end

