-- ==== Sys2Proof/Machine/Operands.lean ====
section
/-! DEFINITION. What the operands of a command mean: a pixel's bit (spec/40_framebuffer.md R112), a
character's columns (42_font.md R150, R151), a sample's level and mask and the bounds of a graph
(43_graph.md R165 to R170). -/

namespace Sys2Proof.Machine

/-! ### Pixels (R112) -/

/-- A column with bit `y` set or cleared, the other bits kept. -/
def pixelColumn (c : Byte) (y : Fin 8) (v : Bool) : Byte :=
  if v then c ||| BitVec.ofNat 8 (2 ^ y.val) else c &&& ~~~BitVec.ofNat 8 (2 ^ y.val)

/-! ### Characters (R150 to R152) -/

/-- The glyph a character renders with: `none` for a blank. The space test comes first and does not
consult the font (R150). -/
def glyphOf (space : Nat) (f : Font) (ch : Nat) : Option Glyph :=
  if ch = space then none else fontLookup f ch

/-- The columns a character writes: three zeros for a blank, else its glyph and one zero spacer
(R151). -/
def charColumns (space : Nat) (f : Font) (ch : Nat) : List Byte :=
  match glyphOf space f ch with
  | none => List.replicate blankW 0
  | some g => g ++ List.replicate spacerW 0

/-- `width(t)`: the columns a text takes (R152). -/
def textWidth (space : Nat) (f : Font) : List Nat → Nat
  | [] => 0
  | ch :: text => (charColumns space f ch).length + textWidth space f text

/-- The characters of a text, in order, each at the cursor the one before it left (R151). -/
def renderText (space : Nat) (f : Font) : List Nat → Nat → Memory → Memory
  | [], _, m => m
  | ch :: text, x, m =>
      renderText space f text (x + (charColumns space f ch).length)
        (m.setCols x (charColumns space f ch))

/-! ### Samples (R165 to R169) -/

/-- `trunc(q)`: the integer part of `q`, rounding toward zero (R9). -/
def truncRat (q : Rat) : Int := q.num.tdiv q.den

/-- The level of a sample (R166); 5 in the degenerate range (R169). -/
def graphLevel (low high v : Rat) : Int :=
  if high - low = 0 then graphScale else truncRat ((v - low) / (high - low) * graphScale)

/-- The mask of a level (R167), as printed. -/
def graphMask (n : Int) : Byte :=
  if n ≤ 1 then 0b00000
  else if n = 2 then 0b10000
  else if n = 3 then 0b11000
  else if n = 4 then 0b11100
  else 0b11111

/-- The least of a sample and the samples after it. -/
def leastOf (v : Rat) : List Rat → Rat
  | [] => v
  | u :: vs => leastOf (if u < v then u else v) vs

/-- The greatest of a sample and the samples after it. -/
def greatestOf (v : Rat) : List Rat → Rat
  | [] => v
  | u :: vs => greatestOf (if v < u then u else v) vs

/-- The low and high of a graph with at least one sample, `auto` resolved over all samples before any
column is written (R168). -/
def graphBounds (v : Rat) (vs : List Rat) (low high : Option Rat) : Rat × Rat :=
  (low.getD (leastOf v vs), high.getD (greatestOf v vs))

/-- The masks of a graph's samples, in input order; none for no samples, and then no bound is formed
(R168, R170). -/
def graphColumns (values : List Rat) (low high : Option Rat) : List Byte :=
  match values with
  | [] => []
  | v :: vs =>
      (v :: vs).map fun u =>
        graphMask (graphLevel (graphBounds v vs low high).1 (graphBounds v vs low high).2 u)

end Sys2Proof.Machine
end

