-- ==== Sys2Proof/Machine/Driver.lean ====
section
/-! DEFINITION. INIT, SETMODE, SETBRT, UPDATE, IOERR (spec/44_driver.md section 2). -/

namespace Sys2Proof.Machine

/-- The state of `INIT` before its bus write: opened and reset, the font kept (R182). -/
def State.opened (s : State) : State :=
  (((((s.emit (.opened s.cfg.busChannel)).setBusOpen true).setBuf Memory.blank).setOff 0).setErr 0).setRot
    false

/-- `INIT` (R182): open, reset, then the mode-set write. -/
def execInit (s : State) : Outcome := busWrite .modeSet [s.cfg.mode5x11] s.opened

/-- `SETMODE m` (R183): the fixed constant, the operand not used. -/
def execSetmode (_m : Byte) (s : State) : Outcome := busWrite .modeSet [s.cfg.mode5x11] s

/-- `SETBRT b` (R184). -/
def execSetbrt (b : Byte) (s : State) : Outcome := busWrite .brightnessSet [b] s

/-- `UPDATE` (R185). -/
def execUpdate (s : State) : Outcome := push s

/-- `IOERR` (R186). -/
def execIoerr (s : State) : Outcome := .next (s.respond s.err)

end Sys2Proof.Machine
end

