-- ==== Sys2Proof/Machine/Framebuffer.lean ====
section
/-! DEFINITION. SETCOL, SETPIX, CLEAR, SETBUF, BUFLEN (spec/40_framebuffer.md). None of them writes the
bus (R110). -/

namespace Sys2Proof.Machine

/-- `SETCOL x, v` (R111). -/
def execSetcol (x : Nat) (v : Byte) (s : State) : Outcome :=
  whenFits s (x + 1) (.next (s.setBuf (s.buf.setCol x v)))

/-- `SETPIX x, y, v` (R112): grows as SETCOL does, then sets or clears one bit of the column. -/
def execSetpix (x : Nat) (y : Fin 8) (v : Bool) (s : State) : Outcome :=
  whenFits s (x + 1)
    (.next (s.setBuf ((s.buf.grow x).write x (pixelColumn ((s.buf.grow x).read x) y v))))

/-- `CLEAR` (R113). -/
def execClear (s : State) : Outcome := .next ((s.setBuf Memory.blank).setOff 0)

/-- `SETBUF cols` (R114). -/
def execSetbuf (cols : List Byte) (s : State) : Outcome :=
  if cols.length < minLen then .refused .shortBuffer
  else whenFits s cols.length
    (.next ((s.setBuf (Memory.ofColumns cols)).setOff (floorMod s.off cols.length)))

/-- `BUFLEN` (R115). -/
def execBuflen (s : State) : Outcome := .next (s.respond s.buf.len)

end Sys2Proof.Machine
end

