-- ==== Sys2Proof/Machine/Graph.lean ====
section
/-! DEFINITION. GRAPH (spec/43_graph.md). -/

namespace Sys2Proof.Machine

/-- `GRAPH values, low, high` (R168): one mask per sample from column 0 on, then exactly one push. -/
def execGraph (values : List Rat) (low high : Option Rat) (s : State) : Outcome :=
  whenOpen s (whenFits s values.length
    (push (s.setBuf (s.buf.setCols 0 (graphColumns values low high)))))

end Sys2Proof.Machine
end

