-- ==== Sys2Proof/Machine/Text.lean ====
section
/-! DEFINITION. WRSTR, LOADFONT (spec/42_font.md). -/

namespace Sys2Proof.Machine

/-- The buffer length a text at `x` asks for: none for the empty text, which writes no column (R151). -/
def textNeeds (s : State) (text : List Nat) (x : Nat) : Nat :=
  if text.isEmpty then 0 else x + textWidth s.cfg.spaceCode s.font text

/-- `WRSTR text, start_x` (R151): the text rendered from the cursor on, then exactly one push. -/
def execWrstr (text : List Nat) (startX : Nat) (s : State) : Outcome :=
  whenOpen s (whenFits s (textNeeds s text startX)
    (push (s.setBuf (renderText s.cfg.spaceCode s.font text startX s.buf))))

/-- `LOADFONT f` (R154): the whole map replaced, not merged; no push. -/
def execLoadfont (f : Font) (s : State) : Outcome := .next (s.setFont (fontOfEntries f))

end Sys2Proof.Machine
end

