-- ==== Sys2Proof/Machine/Window.lean ====
section
/-! DEFINITION. SCROLL, SCROLLTO, SETROT (spec/41_window.md section 2). -/

namespace Sys2Proof.Machine

/-- `SCROLL d` (R134): the offset moves whether or not the push then fails. -/
def execScroll (d : Int) (s : State) : Outcome := push (s.setOff (floorMod (s.off + d) s.buf.len))

/-- `SCROLLTO p` (R135). -/
def execScrollto (p : Int) (s : State) : Outcome := push (s.setOff (floorMod p s.buf.len))

/-- `SETROT r` (R136): no push. -/
def execSetrot (r : Bool) (s : State) : Outcome := .next (s.setRot r)

end Sys2Proof.Machine
end

