-- ==== Sys2Proof/Machine/Dispatch.lean ====
section
/-! DEFINITION. The dispatch: one arm per command, each one call of its meaning. -/

namespace Sys2Proof.Machine

def exec (i : Instr) (s : State) : Host.Outcome State Fault Refusal :=
  match i with
  | .init => Sys2Proof.Machine.execInit s
  | .setmode m => Sys2Proof.Machine.execSetmode m s
  | .setbrt b => Sys2Proof.Machine.execSetbrt b s
  | .wrstr text startX => Sys2Proof.Machine.execWrstr text startX s
  | .graph values low high => Sys2Proof.Machine.execGraph values low high s
  | .setcol x v => Sys2Proof.Machine.execSetcol x v s
  | .setpix x y v => Sys2Proof.Machine.execSetpix x y v s
  | .setbuf cols => Sys2Proof.Machine.execSetbuf cols s
  | .buflen => Sys2Proof.Machine.execBuflen s
  | .scroll d => Sys2Proof.Machine.execScroll d s
  | .scrollto p => Sys2Proof.Machine.execScrollto p s
  | .clear => Sys2Proof.Machine.execClear s
  | .loadfont f => Sys2Proof.Machine.execLoadfont f s
  | .ioerr => Sys2Proof.Machine.execIoerr s
  | .update => Sys2Proof.Machine.execUpdate s
  | .setrot r => Sys2Proof.Machine.execSetrot r s

end Sys2Proof.Machine
end

