-- ==== Sys2Proof/Decode.lean ====
section
/-! DEFINITION. The command packet: field types, formats, opcode map, decoder and encoder
(spec/30_encoding.md R82 to R87). The decoder is total: every byte sequence is exactly one command or
invalid, by name. -/

namespace Sys2Proof

/-! ### Field types (R82) -/

/-- A `u32` field: four bytes, least significant first. -/
def u32 (b0 b1 b2 b3 : Byte) : Nat :=
  b0.toNat + 2 ^ 8 * b1.toNat + 2 ^ 16 * b2.toNat + 2 ^ 24 * b3.toNat

/-- `sext_32`: an unsigned 32-bit value read as two's complement. -/
def sext32 (v : Nat) : Int := if v < 2 ^ 31 then (v : Int) else (v : Int) - 2 ^ 32

/-- An `s32` field. -/
def s32 (b0 b1 b2 b3 : Byte) : Int := sext32 (u32 b0 b1 b2 b3)

/-- A `u32[n]` field group, first element first; bytes left over after the last whole field are dropped
(the decoder checks the length before). -/
def u32s : List Byte → List Nat
  | b0 :: b1 :: b2 :: b3 :: rest => u32 b0 b1 b2 b3 :: u32s rest
  | _ => []

/-- The four bytes of a `u32` field. -/
def u32Bytes (v : Nat) : List Byte :=
  [BitVec.ofNat 8 v, BitVec.ofNat 8 (v / 2 ^ 8), BitVec.ofNat 8 (v / 2 ^ 16),
    BitVec.ofNat 8 (v / 2 ^ 24)]

/-- The four bytes of an `s32` field. -/
def s32Bytes (v : Int) : List Byte := u32Bytes (v % 2 ^ 32).toNat

/-! ### Opcode map and formats (R83, R84) -/

/-- Every mnemonic, in opcode order. -/
def Op.all : List Op :=
  [.init, .setmode, .setbrt, .wrstr, .graph, .setcol, .setpix, .setbuf,
   .buflen, .scroll, .scrollto, .clear, .loadfont, .ioerr, .update, .setrot]

/-- The opcode map (R84). -/
def Op.code : Op → Byte
  | .init => 0x01
  | .setmode => 0x02
  | .setbrt => 0x03
  | .wrstr => 0x04
  | .graph => 0x05
  | .setcol => 0x06
  | .setpix => 0x07
  | .setbuf => 0x08
  | .buflen => 0x09
  | .scroll => 0x0A
  | .scrollto => 0x0B
  | .clear => 0x0C
  | .loadfont => 0x0D
  | .ioerr => 0x0E
  | .update => 0x0F
  | .setrot => 0x10

/-- The mnemonic of an opcode byte; `none` for the reserved ones (R87 (b)). -/
def Op.ofByte (b : Byte) : Option Op := Op.all.find? fun o => o.code == b

/-- The format of a mnemonic (R84). -/
def Op.format : Op → Format
  | .init => .f0
  | .setmode => .fb
  | .setbrt => .fb
  | .wrstr => .fstr
  | .graph => .fgr
  | .setcol => .fxv
  | .setpix => .fxyv
  | .setbuf => .fbuf
  | .buflen => .f0
  | .scroll => .fw
  | .scrollto => .fw
  | .clear => .f0
  | .loadfont => .ffnt
  | .ioerr => .f0
  | .update => .f0
  | .setrot => .fb

/-! ### Length of a packet (R86), from its opcode and its count fields -/

/-- Byte `i` of a packet, 0 past its end. -/
def byteAt (p : List Byte) (i : Nat) : Byte := p.getD i 0

/-- The `u32` field at offset `i`. -/
def u32At (p : List Byte) (i : Nat) : Nat :=
  u32 (byteAt p i) (byteAt p (i + 1)) (byteAt p (i + 2)) (byteAt p (i + 3))

/-- The bytes that `k` font entries take from the head of `p`: each a `u32` code, a `u8` width and that
many columns. -/
def entriesLength : Nat → List Byte → Nat
  | 0, _ => 0
  | k + 1, p => 5 + (byteAt p 4).toNat + entriesLength k (p.drop (5 + (byteAt p 4).toNat))

/-- Total length of a packet of a format (R83). -/
def Format.length : Format → List Byte → Nat
  | .f0, _ => 1
  | .fb, _ => 2
  | .fw, _ => 5
  | .fxv, _ => 6
  | .fxyv, _ => 7
  | .fbuf, p => 5 + u32At p 1
  | .fstr, p => 9 + 4 * u32At p 5
  | .fgr, p => 14 + 4 * u32At p 10
  | .ffnt, p => 5 + entriesLength (u32At p 1) (p.drop 5)

/-- The length R86 gives a packet; `none` for a packet that is empty or has a reserved opcode. -/
def packetLength : List Byte → Option Nat
  | [] => none
  | op :: body => (Op.ofByte op).map fun o => o.format.length (op :: body)

/-! ### The decoder (R83, R85, R87), one function per format, over the bytes after the opcode -/

/-- Format `F0`. -/
def decodeF0 (i : Instr) : List Byte → Except PacketError Instr
  | [] => .ok i
  | _ => .error .wrongLength

/-- Format `FB`. -/
def decodeFB (f : Byte → Except PacketError Instr) : List Byte → Except PacketError Instr
  | [a] => f a
  | _ => .error .wrongLength

/-- Format `FW`. -/
def decodeFW (f : Int → Instr) : List Byte → Except PacketError Instr
  | [a0, a1, a2, a3] => .ok (f (s32 a0 a1 a2 a3))
  | _ => .error .wrongLength

/-- `SETROT`'s operand: 0 false, 1 true, other values reserved (R85, R87 (d)). -/
def decodeRot (a : Byte) : Except PacketError Instr :=
  if a = 0 then .ok (.setrot false)
  else if a = 1 then .ok (.setrot true)
  else .error (.reservedRotate a)

/-- Format `FXV`. -/
def decodeFXV : List Byte → Except PacketError Instr
  | [x0, x1, x2, x3, v] => .ok (.setcol (u32 x0 x1 x2 x3) v)
  | _ => .error .wrongLength

/-- Format `FXYV`: any non-zero `v` sets, `y` is 0 to 7 (R85, R87 (e)). -/
def decodeFXYV : List Byte → Except PacketError Instr
  | [x0, x1, x2, x3, y, v] =>
      if h : y.toNat < 8 then .ok (.setpix (u32 x0 x1 x2 x3) ⟨y.toNat, h⟩ (v != 0))
      else .error (.pixelRow y)
  | _ => .error .wrongLength

/-- Format `FBUF`. -/
def decodeFBUF : List Byte → Except PacketError Instr
  | n0 :: n1 :: n2 :: n3 :: cols =>
      if cols.length ≠ u32 n0 n1 n2 n3 then .error .wrongLength
      else if cols.length < minLen then .error .shortBuffer
      else .ok (.setbuf cols)
  | _ => .error .wrongLength

/-- Format `FSTR`. -/
def decodeFSTR : List Byte → Except PacketError Instr
  | x0 :: x1 :: x2 :: x3 :: n0 :: n1 :: n2 :: n3 :: text =>
      if text.length ≠ 4 * u32 n0 n1 n2 n3 then .error .wrongLength
      else .ok (.wrstr (u32s text) (u32 x0 x1 x2 x3))
  | _ => .error .wrongLength

/-- A sample of the packet: an `s32` read as a rational (R165). -/
def sampleOf (v : Nat) : Rat := (sext32 v : Rat)

/-- A bound of `GRAPH`: `auto` when its flag bit is set, and then the field is ignored (R85). -/
def boundOf (auto : Bool) (v : Nat) : Option Rat := if auto then none else some (sampleOf v)

/-- Format `FGR`. -/
def decodeFGR : List Byte → Except PacketError Instr
  | flags :: l0 :: l1 :: l2 :: l3 :: h0 :: h1 :: h2 :: h3 :: n0 :: n1 :: n2 :: n3 :: values =>
      if values.length ≠ 4 * u32 n0 n1 n2 n3 then .error .wrongLength
      else if 4 ≤ flags.toNat then .error (.reservedGraphFlags flags)
      else .ok (.graph ((u32s values).map sampleOf)
        (boundOf (flags.getLsbD 0) (u32 l0 l1 l2 l3)) (boundOf (flags.getLsbD 1) (u32 h0 h1 h2 h3)))
  | _ => .error .wrongLength

/-- `k` font entries from the head of the bytes, with the bytes left; `none` when the bytes run out. -/
def takeEntries : Nat → List Byte → Option (Font × List Byte)
  | 0, p => some ([], p)
  | k + 1, c0 :: c1 :: c2 :: c3 :: w :: p =>
      if w.toNat ≤ p.length then
        (takeEntries k (p.drop w.toNat)).map fun r =>
          ((u32 c0 c1 c2 c3, p.take w.toNat) :: r.1, r.2)
      else none
  | _ + 1, _ => none

/-- Format `FFNT`: the entries fill the packet exactly, codes strictly increasing (R85, R87 (g)). -/
def decodeFFNT : List Byte → Except PacketError Instr
  | k0 :: k1 :: k2 :: k3 :: entries =>
      match takeEntries (u32 k0 k1 k2 k3) entries with
      | some (f, []) => if fontOrdered f then .ok (.loadfont f) else .error .fontOrder
      | _ => .error .wrongLength
  | _ => .error .wrongLength

/-- The bytes after an opcode, by its format (R83, R84). -/
def decodeBody : Op → List Byte → Except PacketError Instr
  | .init => decodeF0 .init
  | .setmode => decodeFB fun m => .ok (.setmode m)
  | .setbrt => decodeFB fun b => .ok (.setbrt b)
  | .wrstr => decodeFSTR
  | .graph => decodeFGR
  | .setcol => decodeFXV
  | .setpix => decodeFXYV
  | .setbuf => decodeFBUF
  | .buflen => decodeF0 .buflen
  | .scroll => decodeFW .scroll
  | .scrollto => decodeFW .scrollto
  | .clear => decodeF0 .clear
  | .loadfont => decodeFFNT
  | .ioerr => decodeF0 .ioerr
  | .update => decodeF0 .update
  | .setrot => decodeFB decodeRot

/-- The command a packet carries, or why it is invalid (R86, R87). -/
def decode : List Byte → Except PacketError Instr
  | [] => .error .empty
  | op :: body =>
      match Op.ofByte op with
      | none => .error (.reservedOpcode op)
      | some o => decodeBody o body

/-! ### The encoder (R82 to R85) -/

/-- A bound's flag bit. -/
def boundFlag (b : Option Rat) : Nat := if b.isNone then 1 else 0

/-- A bound's field, 0 for `auto` (R85). -/
def boundBytes (b : Option Rat) : List Byte := s32Bytes (b.getD 0).num

/-- A font entry's bytes. -/
def entryBytes (e : Nat × Glyph) : List Byte :=
  u32Bytes e.1 ++ [BitVec.ofNat 8 e.2.length] ++ e.2

/-- The bytes of a command after its opcode. -/
def encodeBody : Instr → List Byte
  | .init => []
  | .setmode m => [m]
  | .setbrt b => [b]
  | .wrstr text startX => u32Bytes startX ++ u32Bytes text.length ++ text.flatMap u32Bytes
  | .graph values low high =>
      [BitVec.ofNat 8 (boundFlag low + 2 * boundFlag high)] ++ boundBytes low ++ boundBytes high
        ++ u32Bytes values.length ++ values.flatMap fun q => s32Bytes q.num
  | .setcol x v => u32Bytes x ++ [v]
  | .setpix x y v => u32Bytes x ++ [BitVec.ofNat 8 y.val, if v then 1 else 0]
  | .setbuf cols => u32Bytes cols.length ++ cols
  | .buflen => []
  | .scroll d => s32Bytes d
  | .scrollto p => s32Bytes p
  | .clear => []
  | .loadfont f => u32Bytes f.length ++ f.flatMap entryBytes
  | .ioerr => []
  | .update => []
  | .setrot r => [if r then 1 else 0]

/-- The packet of a command. It is the command's packet when the command is well formed; operands that
no field can hold are cut to their field. -/
def encode (i : Instr) : List Byte := i.op.code :: encodeBody i

/-! ### Words of the opcode table -/

/-- The packet whose first bytes are the `nbits` bits of `w`, byte 0 from bits 7 to 0, and whose other
bytes, up to the length R86 gives it, are 0. -/
def tablePacket (nbits w : Nat) : List Byte :=
  let raw := (List.range ((nbits + 7) / 8)).map fun i => BitVec.ofNat 8 (w % 2 ^ nbits / 2 ^ (8 * i))
  raw ++ List.replicate ((packetLength raw).getD 0 - raw.length) 0

/-- The command the decoder reads from `tablePacket nbits w`. -/
def decodeTableWord (nbits w : Nat) : Option Instr := (decode (tablePacket nbits w)).toOption

end Sys2Proof
end

