-- ==== Sys2Proof/Machine/Fetch.lean ====
section
/-! DEFINITION. Taking the next command from the command port (spec/00_scope.md R5, R2;
30_encoding.md R86, R87). -/

namespace Sys2Proof.Machine

/-- The command a submission carries: a packet goes through the decoder, an abstract command is one. -/
def readSubmission : Submission → Except PacketError Instr
  | .packet bytes => decode bytes
  | .command i => .ok i

/-- The state once the command at the head of the port has been accepted. -/
def State.accept (s : State) : State := { s with port := s.port.tail }

/-- The state with one more submission at the head of the port. -/
def State.submit (s : State) (c : Submission) : State := { s with port := c :: s.port }

end Sys2Proof.Machine
end

