-- ==== Sys2Proof/Machine/Step.lean ====
section
/-! DEFINITION. One step: the next command of the command port, run to its end (spec/20_memory.md R59,
R61; 10_state.md R28). -/

namespace Sys2Proof.Machine

/-- One step. With no command handed over nothing happens (R205); an invalid packet is refused (R87);
else the command leaves the port and runs. -/
def step (s : State) : Host.Outcome State Fault Refusal :=
  match s.port with
  | [] => .next s
  | c :: _ =>
      match readSubmission c with
      | .error why => .refused (.invalidPacket why)
      | .ok i => exec i s.accept

/-- The state with the packet of a table word at the head of the command port: the next step takes it
(R82). -/
def State.withFetchWord (s : State) (nbits w : Nat) : State := s.submit (.packet (tablePacket nbits w))

end Sys2Proof.Machine
end

