-- ==== Sys2Proof/Machine/Flags.lean ====
section
/-! DEFINITION. The block has no condition codes (spec/10_state.md R29). What a command can raise are the
three conditions of 60_exceptions.md R200; they transfer no control (R207) and, but for the counted
failure, leave nothing behind. This file says which conditions a command raises, in order (R206). -/

namespace Sys2Proof.Machine

/-- The conditions of R200. -/
inductive Condition where
  /-- (a) the transport answered a write with failure -/
  | transportError (reg : BusReg)
  /-- (b) a character other than the space is absent from the font -/
  | glyphLookupMiss (ch : Nat)
  /-- (c) `high - low = 0` with at least one sample -/
  | degenerateScalingRange (low : Rat)
deriving DecidableEq, Repr

/-- The letter of a condition (R200, decision D27). -/
def conditionCode : Condition → Char
  | .transportError _ => 'a'
  | .glyphLookupMiss _ => 'b'
  | .degenerateScalingRange _ => 'c'

/-- `TransportError` of the next bus write (R180). -/
def writeConditions (s : State) (reg : BusReg) : List Condition :=
  match s.nextAnswer with
  | .ok => []
  | .fail => [.transportError reg]

/-- `GlyphLookupMiss`, once per missing character, in order (R150, R151). -/
def textConditions (space : Nat) (f : Font) (text : List Nat) : List Condition :=
  (text.filter fun ch => decide (ch ≠ space) && (fontLookup f ch).isNone).map .glyphLookupMiss

/-- `DegenerateScalingRange`, at most once, when there is a sample (R168, R169). -/
def graphConditions (values : List Rat) (low high : Option Rat) : List Condition :=
  match values with
  | [] => []
  | v :: vs =>
      if (graphBounds v vs low high).2 - (graphBounds v vs low high).1 = 0 then
        [.degenerateScalingRange (graphBounds v vs low high).1]
      else []

/-- The register a command writes on the bus, if it writes (R188). -/
def busRegOf : Instr → Option BusReg
  | .init => some .modeSet
  | .setmode _ => some .modeSet
  | .setbrt _ => some .brightnessSet
  | .wrstr _ _ => some .draw
  | .graph _ _ _ => some .draw
  | .setcol _ _ => none
  | .setpix _ _ _ => none
  | .setbuf _ => none
  | .buflen => none
  | .scroll _ => some .draw
  | .scrollto _ => some .draw
  | .clear => none
  | .loadfont _ => none
  | .ioerr => none
  | .update => some .draw
  | .setrot _ => none

/-- The conditions before the bus write: the lookup misses of a text, the degenerate range of a graph. -/
def operandConditions (i : Instr) (s : State) : List Condition :=
  match i with
  | .wrstr text _ => textConditions s.cfg.spaceCode s.font text
  | .graph values low high => graphConditions values low high
  | .init => []
  | .setmode _ => []
  | .setbrt _ => []
  | .setcol _ _ => []
  | .setpix _ _ _ => []
  | .setbuf _ => []
  | .buflen => []
  | .scroll _ => []
  | .scrollto _ => []
  | .clear => []
  | .loadfont _ => []
  | .ioerr => []
  | .update => []
  | .setrot _ => []

/-- The conditions a command that completes raises, in the order of R206. -/
def conditions (i : Instr) (s : State) : List Condition :=
  operandConditions i s ++
    match busRegOf i with
    | none => []
    | some reg => writeConditions s reg

end Sys2Proof.Machine
end

