-- ==== Sys2Proof/Safety.lean ====
section
/-! DEFINITION. What a good state is, what a trace says, and the shapes the statements are written in
(spec/10_state.md section 5, 44_driver.md section 1). -/

namespace Sys2Proof.Machine

/-! ### The invariant of the registers (R33) -/

/-- The state is one of the machine's own: the column memory in canonical form, `LEN ≥ 11` and
`OFF < LEN` (R33), `LEN` within the capacity (R38), the font a map in canonical form (R25), `ERR`
within the counter (R38), the parameters as the spec asks (R7). -/
abbrev State.Inv (s : State) : Prop :=
  s.buf.wf ∧ s.windowDefined ∧ fitsCap s.cfg s.buf.len = true ∧ fontOrdered s.font
    ∧ (∀ m ∈ s.cfg.errMax, s.err ≤ m) ∧ s.cfg.wf

/-! ### Reading a trace (R32) -/

/-- A bus write. -/
def Event.isWrite : Event → Bool
  | .opened _ => false
  | .write _ _ _ _ => true
  | .resp _ => false
  | .notice => false

/-- An opening of the bus. -/
def Event.isOpened : Event → Bool
  | .opened _ => true
  | .write _ _ _ _ => false
  | .resp _ => false
  | .notice => false

/-- A response. -/
def Event.isResp : Event → Bool
  | .opened _ => false
  | .write _ _ _ _ => false
  | .resp _ => true
  | .notice => false

/-- Failed bus writes since the last `INIT` opened the bus, one event further. -/
def failStep (n : Nat) : Event → Nat
  | .opened _ => 0
  | .write _ _ _ .ok => n
  | .write _ _ _ .fail => n + 1
  | .resp _ => n
  | .notice => n

/-- Failed bus writes since the last `INIT` opened the bus. -/
def failsSinceOpen (trace : List Event) : Nat := trace.foldl failStep 0

/-- Notices since the last `INIT` opened the bus, one event further. -/
def noticeStep (n : Nat) : Event → Nat
  | .opened _ => 0
  | .write _ _ _ _ => n
  | .resp _ => n
  | .notice => n + 1

/-- Notices since the last `INIT` opened the bus. -/
def noticesSinceOpen (trace : List Event) : Nat := trace.foldl noticeStep 0

/-- `ERR` counts the failed writes since the last `INIT` (R24), one notice has been emitted since then
exactly when `ERR ≥ 10` (R29), and `BUSOPEN` says whether the bus was ever opened (R26). -/
abbrev State.Accounted (s : State) : Prop :=
  s.err = saturateErr s.cfg (failsSinceOpen s.trace)
    ∧ noticesSinceOpen s.trace = (if noticeAt ≤ s.err then 1 else 0)
    ∧ s.busOpen = s.trace.any Event.isOpened

/-- The payload a register of the display controller takes (R58, R89, R90): the mode constant, one
byte, or 12 bytes of which the last is the terminator. -/
abbrev payloadLegal (c : Config) (reg : Nat) (bytes : List Byte) : Prop :=
  (reg = c.regMode ∧ bytes = [c.mode5x11])
    ∨ (reg = c.regBright ∧ bytes.length = 1)
    ∨ (reg = c.regDraw ∧ bytes.length = frameLen ∧ bytes[11]? = some term)

/-- A bus event the block may produce: any write goes to `DEV_ADDR`, to one of the three registers, with
that register's payload (R58). -/
def eventLegal (c : Config) : Event → Prop
  | .opened channel => channel = c.busChannel
  | .write addr reg bytes _ => addr = c.devAddr ∧ payloadLegal c reg bytes
  | .resp _ => True
  | .notice => True

/-- Every bus event so far is legal. -/
def State.TrafficLegal (s : State) : Prop := ∀ e ∈ s.trace, eventLegal s.cfg e

/-! ### What one bus write adds (R180) -/

/-- The events of one write whose failure is counted from `old`. -/
def writeEvents (s : State) (old : Nat) (reg : BusReg) (bytes : List Byte) : List Event :=
  .write s.cfg.devAddr (regNumber s.cfg reg) bytes s.nextAnswer ::
    (if s.nextAnswer = .fail ∧ old = 9 then [.notice] else [])

/-- `ERR` after one write whose failure is counted from `old`. -/
def errAfter (s : State) (old : Nat) : Nat :=
  if s.nextAnswer = .fail then saturateErr s.cfg (old + 1) else old

/-- `t` has used up one answer of the transport; the parameters and the command port are as in `s`. -/
abbrev State.Answered (s t : State) : Prop :=
  t.answers = s.answers.tail ∧ t.freeCount = s.freeCount + (if s.answers.isEmpty then 1 else 0)
    ∧ t.cfg = s.cfg ∧ t.port = s.port

/-- The outside world's side and the parameters are as in `s`: no bus write happened. -/
abbrev State.Quiet (s t : State) : Prop :=
  t.answers = s.answers ∧ t.freeCount = s.freeCount ∧ t.cfg = s.cfg ∧ t.port = s.port

/-- `t` is `s` after exactly one push of the frame `t` shows (R181), its failure counted (R180). -/
abbrev State.PushedOnce (s t : State) : Prop :=
  t.trace = s.trace ++ writeEvents s s.err .draw t.frame ∧ t.err = errAfter s s.err
    ∧ t.busOpen = s.busOpen ∧ s.Answered t

/-! ### The commands by what they do on the bus (R188) -/

/-- The payload of a command's bus write, the frame being that of the state after the command (R188). -/
def payloadOf (i : Instr) (t : State) : List Byte :=
  match i with
  | .init => [t.cfg.mode5x11]
  | .setmode _ => [t.cfg.mode5x11]
  | .setbrt b => [b]
  | .wrstr _ _ => t.frame
  | .graph _ _ _ => t.frame
  | .scroll _ => t.frame
  | .scrollto _ => t.frame
  | .update => t.frame
  | .setcol _ _ => []
  | .setpix _ _ _ => []
  | .setbuf _ => []
  | .buflen => []
  | .clear => []
  | .loadfont _ => []
  | .ioerr => []
  | .setrot _ => []

/-! ### Capacity (R63, R204) -/

/-- The buffer length a command asks for: what `LEN` is at least, if it completes; 0 for a command that
asks for none, the text of no characters included (R151). -/
def askedLength (s : State) : Instr → Nat
  | .setcol x _ => x + 1
  | .setpix x _ _ => x + 1
  | .setbuf cols => cols.length
  | .wrstr text x => if text = [] then 0 else x + textWidth s.cfg.spaceCode s.font text
  | .graph values _ _ => values.length
  | .init => 0
  | .setmode _ => 0
  | .setbrt _ => 0
  | .buflen => 0
  | .scroll _ => 0
  | .scrollto _ => 0
  | .clear => 0
  | .loadfont _ => 0
  | .ioerr => 0
  | .update => 0
  | .setrot _ => 0

/-- The refusals of R204 that a command itself can meet: SETBUF of fewer than 11 columns, a bus-writing
command other than INIT while `BUSOPEN = 0`, a finite capacity that the length it asks for exceeds. -/
def refusalListed (i : Instr) (s : State) (r : Refusal) : Prop :=
  (r = .shortBuffer ∧ ∃ cols, i = .setbuf cols ∧ cols.length < 11)
    ∨ (r = .busNotOpen ∧ s.busOpen = false ∧ i.op ∈ [Op.setmode, Op.setbrt, Op.scroll, Op.scrollto,
        Op.wrstr, Op.graph, Op.update])
    ∨ (r = .capacity ∧ ∃ cap, s.cfg.bufCap = some cap ∧ cap < askedLength s i)

/-! ### Packets, field by field (R82 to R85) -/

/-- The encoding line of a command's rule: the opcode its packet begins with and its format. -/
abbrev encodedAs (i : Instr) (code : Byte) (f : Format) : Prop :=
  (encode i).head? = some code ∧ i.op.format = f

/-- The four bytes of a 32-bit field, bits 7 to 0 first (R82). -/
def le32 (v : BitVec 32) : List Byte :=
  [v.extractLsb' 0 8, v.extractLsb' 8 8, v.extractLsb' 16 8, v.extractLsb' 24 8]

/-- The field of a count (R82). -/
def countField (n : Nat) : List Byte := le32 (BitVec.ofNat 32 n)

/-- The bytes of a font entry: code, width, columns (R83). -/
def entryField (e : BitVec 32 × Glyph) : List Byte :=
  le32 e.1 ++ [BitVec.ofNat 8 e.2.length] ++ e.2

/-! ### The bounds of a graph (R168) -/

/-- `lo` is the low bound: the operand, or for `auto` the least of the samples. -/
abbrev isLowBound (values : List Rat) (low : Option Rat) (lo : Rat) : Prop :=
  low = some lo ∨ (low = none ∧ lo ∈ values ∧ ∀ u ∈ values, lo ≤ u)

/-- `hi` is the high bound: the operand, or for `auto` the greatest of the samples. -/
abbrev isHighBound (values : List Rat) (high : Option Rat) (hi : Rat) : Prop :=
  high = some hi ∨ (high = none ∧ hi ∈ values ∧ ∀ u ∈ values, u ≤ hi)

/-! ### Invalid packets (R87), said of the bytes at their offsets (R83) -/

/-- The codes of `k` font entries from the head of `p`, by the offsets of R83. -/
def entryCodes : Nat → List Byte → List Nat
  | 0, _ => []
  | k + 1, p => u32At p 0 :: entryCodes k (p.drop (5 + (byteAt p 4).toNat))

/-- A packet is invalid: the cases (a) to (h) of R87. -/
def packetInvalid (p : List Byte) : Prop :=
  p = []
    ∨ (byteAt p 0 = 0x00 ∨ 0x11 ≤ (byteAt p 0).toNat)
    ∨ packetLength p ≠ some p.length
    ∨ (byteAt p 0 = 0x10 ∧ 2 ≤ (byteAt p 1).toNat)
    ∨ (byteAt p 0 = 0x07 ∧ 8 ≤ (byteAt p 5).toNat)
    ∨ (byteAt p 0 = 0x05 ∧ 4 ≤ (byteAt p 1).toNat)
    ∨ (byteAt p 0 = 0x0D ∧ ¬ (entryCodes (u32At p 1) (p.drop 5)).Pairwise (· < ·))
    ∨ (byteAt p 0 = 0x08 ∧ u32At p 1 < 11)

/-- The next state of an outcome, if it is one. -/
def nextOf : Outcome → Option State
  | .next s => some s
  | .fault _ => none
  | .refused _ => none

end Sys2Proof.Machine
end

