-- ==== Sys2Proof/Certificates/Slice0/Obligations.lean ====
section
/-! DEFINITION. The statements about the block, for the provers. Each docstring names the rule of spec/
it formalises; OBLIGATIONS.json lists them. -/

open Sys2Proof Sys2Proof.Machine

/-! ### Packets (30_encoding.md) -/

/-- Every command that a packet can carry is read back from its packet, every operand at every value of
its field (R82 to R85). -/
def Obligations.DecodeEncodeRoundTrip : Prop :=
  ∀ i : Instr, i.wellFormed = true → decode (encode i) = .ok i

/-- Whatever the decoder reads is a command with every operand in its field's range (R82, R85). -/
def Obligations.DecodedIsWellFormed : Prop :=
  ∀ (p : List Byte) (i : Instr), decode p = .ok i → i.wellFormed = true

/-- R87: the decoder is total, the invalid packets are exactly the cases (a) to (h), and a step that
meets one is refused as an invalid packet: no next state, so neither state nor trace changes. -/
def Obligations.InvalidPacketsExactly : Prop :=
  (∀ p : List Byte, (∃ why, decode p = .error why) ↔ packetInvalid p)
    ∧ ∀ (p : List Byte) (rest : List Submission) (s : State),
        packetInvalid p → s.port = .packet p :: rest → ∃ why, step s = .refused (.invalidPacket why)

/-- A valid packet has the length R86 gives it, as has the packet of its command; where no field is
ignored and no value has two spellings (all commands but SETPIX and GRAPH, R85) the two are equal. -/
def Obligations.DecodedPacketIsItsEncoding : Prop :=
  ∀ (p : List Byte) (i : Instr), decode p = .ok i →
    packetLength p = some p.length ∧ (encode i).length = p.length
      ∧ (i.op ≠ .setpix → i.op ≠ .graph → encode i = p)

/-- A few packets written out from R83 to R85 decode to the commands they stand for. -/
def Obligations.WrittenPacketsDecode : Prop :=
  decode [0x06, 0x0C, 0, 0, 0, 0x1F] = .ok (.setcol 12 0x1F)
    ∧ decode [0x07, 3, 0, 0, 0, 4, 0x80] = .ok (.setpix 3 4 true)
    ∧ decode [0x0A, 0xFF, 0xFF, 0xFF, 0xFF] = .ok (.scroll (-1))
    ∧ decode [0x10, 1] = .ok (.setrot true)
    ∧ decode [0x04, 9, 0, 0, 0, 1, 0, 0, 0, 0x48, 0, 0, 0] = .ok (.wrstr [72] 9)
    ∧ decode [0x0D, 1, 0, 0, 0, 0x69, 0, 0, 0, 1, 0x17] = .ok (.loadfont [(105, [0x17])])
    ∧ decode [0x02, 0x18] = .ok (.setmode 0x18)

/-- R82, R83, R85: the nine packet layouts, field by field and for every value of every field: 32-bit
fields are four bytes, least significant first, read unsigned or as two's complement; any non-zero `v`
sets a pixel; `GRAPH`'s two flag bits make its bounds automatic and their fields ignored. -/
def Obligations.PacketLayouts : Prop :=
  (decode [0x01] = .ok .init ∧ decode [0x09] = .ok .buflen ∧ decode [0x0C] = .ok .clear
      ∧ decode [0x0E] = .ok .ioerr ∧ decode [0x0F] = .ok .update)
    ∧ (∀ a : Byte, decode [0x02, a] = .ok (.setmode a) ∧ decode [0x03, a] = .ok (.setbrt a))
    ∧ (decode [0x10, 0] = .ok (.setrot false) ∧ decode [0x10, 1] = .ok (.setrot true))
    ∧ (∀ a : BitVec 32, decode (0x0A :: le32 a) = .ok (.scroll a.toInt)
        ∧ decode (0x0B :: le32 a) = .ok (.scrollto a.toInt))
    ∧ (∀ (x : BitVec 32) (v : Byte), decode (0x06 :: le32 x ++ [v]) = .ok (.setcol x.toNat v))
    ∧ (∀ (x : BitVec 32) (y : Fin 8) (v : Byte),
        decode (0x07 :: le32 x ++ [BitVec.ofNat 8 y.val, v])
          = .ok (.setpix x.toNat y (decide (v ≠ 0))))
    ∧ (∀ cols : List Byte, 11 ≤ cols.length → cols.length < 2 ^ 32 →
        decode (0x08 :: countField cols.length ++ cols) = .ok (.setbuf cols))
    ∧ (∀ (x : BitVec 32) (text : List (BitVec 32)), text.length < 2 ^ 32 →
        decode (0x04 :: le32 x ++ countField text.length ++ text.flatMap le32)
          = .ok (.wrstr (text.map BitVec.toNat) x.toNat))
    ∧ (∀ (autoLow autoHigh : Bool) (low high : BitVec 32) (values : List (BitVec 32)),
        values.length < 2 ^ 32 →
        decode (0x05 :: [BitVec.ofNat 8 (autoLow.toNat + 2 * autoHigh.toNat)] ++ le32 low ++ le32 high
            ++ countField values.length ++ values.flatMap le32)
          = .ok (.graph (values.map fun v => (v.toInt : Rat))
              (if autoLow then none else some (low.toInt : Rat))
              (if autoHigh then none else some (high.toInt : Rat))))
    ∧ ∀ f : List (BitVec 32 × Glyph), f.length < 2 ^ 32 → (∀ e ∈ f, e.2.length < 2 ^ 8) →
        (f.Pairwise fun a b => a.1 < b.1) →
        decode (0x0D :: countField f.length ++ f.flatMap entryField)
          = .ok (.loadfont (f.map fun e => (e.1.toNat, e.2)))

/-! ### The step (00_scope.md R5, R2; 20_memory.md R59, R61) -/

/-- A step runs the command at the head of the port: the one a packet decodes to, or an abstract one;
what runs is `exec` of it on the state whose port has lost that submission. A table word placed by
`withFetchWord` is run as the very next command, the port as before. -/
def Obligations.StepRunsDecodedCommand : Prop :=
  (∀ (s : State) (p : List Byte) (rest : List Submission) (i : Instr),
      s.port = .packet p :: rest → decode p = .ok i → step s = exec i { s with port := rest })
    ∧ (∀ (s : State) (rest : List Submission) (i : Instr),
        s.port = .command i :: rest → step s = exec i { s with port := rest })
    ∧ ∀ (s : State) (nbits w : Nat) (i : Instr),
        decodeTableWord nbits w = some i → step (s.withFetchWord nbits w) = exec i s

/-- With no command handed over a step changes nothing: nothing happens in the block except as a step
of a command (R205). That there is such a step at all is the model's choice (assumption log entry 5). -/
def Obligations.EmptyPortStepIdles : Prop :=
  ∀ s : State, s.port = [] → step s = .next s

/-- A step takes at most the one submission at the head of the port, uses at most one answer of the
transport, only appends to the trace, and never changes the parameters (R28, R59, R7). -/
def Obligations.StepTakesOneCommand : Prop :=
  ∀ s t : State, step s = .next t →
    t.cfg = s.cfg ∧ t.port = s.port.tail ∧ s.trace <+: t.trace
      ∧ ((t.answers = s.answers ∧ t.freeCount = s.freeCount)
          ∨ (t.answers = s.answers.tail
              ∧ t.freeCount = s.freeCount + (if s.answers.isEmpty then 1 else 0)))

/-! ### Reset and invariants (10_state.md sections 5 and 6) -/

/-- R35: the state at construction. -/
def Obligations.ResetStateAtConstruction : Prop :=
  State.reset.buf.columns = List.replicate 11 0 ∧ State.reset.buf.len = 11 ∧ State.reset.off = 0
    ∧ State.reset.err = 0 ∧ State.reset.rot = false ∧ State.reset.busOpen = false
    ∧ State.reset.trace = []
    ∧ ∀ ch : Nat, fontLookup State.reset.font ch = fontLookup State.reset.cfg.font0 ch

/-- The state at construction meets the three invariants below. The parameters it holds are free
constants where the spec leaves them open and the spec's defaults elsewhere (assumption log entries 1,
3, 4). -/
def Obligations.ResetMeetsInvariants : Prop :=
  State.reset.Inv ∧ State.reset.Accounted ∧ State.reset.TrafficLegal

/-- R33: every step keeps `LEN ≥ 11` and `0 ≤ OFF < LEN`, and with them the canonical forms of the
column memory and of the font, the capacity, the counter's bound and the parameters' legality. -/
def Obligations.StepKeepsRegisterInvariant : Prop :=
  ∀ s t : State, s.Inv → step s = .next t → t.Inv

/-- Every step keeps the error accounting: `ERR` is the number of failed writes since the last `INIT`
opened the bus (saturated at a finite `ERR_MAX`), exactly one notice has been emitted since then if
`ERR ≥ 10` and none otherwise, and `BUSOPEN` says whether the bus was ever opened (R24, R26, R29,
R180). -/
def Obligations.StepKeepsErrorAccounting : Prop :=
  ∀ s t : State, s.cfg.wf → s.Accounted → step s = .next t → t.Accounted

/-- Every step keeps the bus traffic legal: every write goes to `DEV_ADDR` and to one of the three
registers with that register's payload, so every frame has 12 bytes and ends in `0xFF` (R58, R89,
R90, R91, R137 (a)). -/
def Obligations.StepKeepsTrafficLegal : Prop :=
  ∀ s t : State, s.TrafficLegal → step s = .next t → t.TrafficLegal

/-- From a state that meets the invariant no step ends in a fault: no condition stops the block (R207),
and the window is never formed where R130 leaves it undefined (R33). -/
def Obligations.NoFaultFromInvariant : Prop :=
  ∀ s : State, s.Inv → ∀ r : Fault, step s ≠ .fault r

/-! ### Whole-machine rules -/

/-- Each register has only the writers the spec lists for it (R20, R22 to R26, R38), and `ERR` is
lowered by `INIT` alone. -/
def Obligations.WritersOfRegisters : Prop :=
  ∀ (i : Instr) (s t : State), (∀ m ∈ s.cfg.errMax, s.err ≤ m) → exec i s = .next t →
    (t.rot ≠ s.rot → i.op ∈ [Op.setrot, Op.init])
      ∧ (t.font ≠ s.font → i.op = Op.loadfont)
      ∧ (t.busOpen ≠ s.busOpen → i.op = Op.init ∧ t.busOpen = true)
      ∧ (t.off ≠ s.off → i.op ∈ [Op.scroll, Op.scrollto, Op.clear, Op.setbuf, Op.init])
      ∧ (t.buf ≠ s.buf →
          i.op ∈ [Op.setcol, Op.setpix, Op.clear, Op.setbuf, Op.wrstr, Op.graph, Op.init])
      ∧ (t.buf.len < s.buf.len → i.op ∈ [Op.clear, Op.setbuf, Op.init])
      ∧ (t.err ≠ s.err → i.op ∈ [Op.init, Op.setmode, Op.setbrt, Op.scroll, Op.scrollto, Op.wrstr,
          Op.graph, Op.update])
      ∧ (t.err < s.err → i.op = Op.init)

/-- The table of R188: what each command writes on the bus, which register and which payload (the
frame being that of the state the command leaves), with the one `Open` of `INIT` before it, and the
responses of BUFLEN and IOERR; no other command opens or responds (R88). -/
def Obligations.BusWritesPerCommand : Prop :=
  ∀ (i : Instr) (s t : State), exec i s = .next t →
    ∃ new, t.trace = s.trace ++ new
      ∧ new.filter Event.isWrite =
          (match busRegOf i with
            | none => []
            | some reg =>
                [.write s.cfg.devAddr (regNumber s.cfg reg) (payloadOf i t) s.nextAnswer])
      ∧ new.filter Event.isOpened = (if i = .init then [.opened s.cfg.busChannel] else [])
      ∧ new.filter Event.isResp =
          (if i = .buflen then [.resp s.buf.len] else if i = .ioerr then [.resp s.err] else [])

/-- R209: with `BUSOPEN = 0` the seven bus-writing commands other than INIT are refused; the eight that
write no bus register are defined, their own refusals of R204 apart (SETBUF of fewer than 11 columns,
more columns than a finite capacity holds), and do what they do on an open bus; INIT completes and sets
it, and nothing clears it. -/
def Obligations.BusWritersRefusedBeforeInit : Prop :=
  (∀ s : State, s.busOpen = false →
    (∀ i : Instr, i.op ∈ [Op.setmode, Op.setbrt, Op.scroll, Op.scrollto, Op.wrstr, Op.graph,
        Op.update] → exec i s = .refused .busNotOpen)
      ∧ (∀ i : Instr, i.op ∈ [Op.setcol, Op.setpix, Op.clear, Op.setbuf, Op.buflen, Op.loadfont,
          Op.ioerr, Op.setrot] →
          exec i s ≠ .refused .busNotOpen
            ∧ ((∀ cols, i = .setbuf cols → 11 ≤ cols.length) →
                (∀ cap, s.cfg.bufCap = some cap → askedLength s i ≤ cap) →
                ∃ t, exec i s = .next t ∧ t.busOpen = false
                  ∧ exec i { s with busOpen := true } = .next { t with busOpen := true }))
      ∧ ∃ t, exec .init s = .next t ∧ t.busOpen = true)
    ∧ ∀ (i : Instr) (s t : State), s.busOpen = true → exec i s = .next t → t.busOpen = true

/-- R63: under a finite `BUF_CAP` a command that would make the buffer longer than it is refused; the
write is never wrapped, cut or dropped. -/
def Obligations.CapacityRefusals : Prop :=
  ∀ (s : State) (cap : Nat), s.cfg.bufCap = some cap →
    (∀ (x : Nat) (v : Byte), cap ≤ x → exec (.setcol x v) s = .refused .capacity)
      ∧ (∀ (x : Nat) (y : Fin 8) (v : Bool), cap ≤ x → exec (.setpix x y v) s = .refused .capacity)
      ∧ (∀ cols : List Byte, 11 ≤ cols.length → cap < cols.length →
          exec (.setbuf cols) s = .refused .capacity)
      ∧ (s.busOpen = true →
          (∀ (text : List Nat) (x : Nat), text ≠ [] →
            cap < x + textWidth s.cfg.spaceCode s.font text →
              exec (.wrstr text x) s = .refused .capacity)
          ∧ ∀ (values : List Rat) (low high : Option Rat), cap < values.length →
              exec (.graph values low high) s = .refused .capacity)

/-- R204: the complete list of refusals, both ways. A command is refused only as the list gives it, and
one that meets a case of the list is refused; a step is refused only for an invalid packet at the head of
the port or as the command that the head of the port carries, and in both cases it is refused. -/
def Obligations.RefusalsAreListed : Prop :=
  (∀ (i : Instr) (s : State),
      (∀ r, exec i s = .refused r → refusalListed i s r)
        ∧ ((∃ r, refusalListed i s r) → ∃ r, exec i s = .refused r))
    ∧ ∀ s : State,
      (∀ r, step s = .refused r →
          (∃ why p, r = .invalidPacket why ∧ s.port.head? = some (.packet p) ∧ packetInvalid p)
            ∨ ∃ c i, s.port.head? = some c ∧ readSubmission c = .ok i
                ∧ exec i { s with port := s.port.tail } = .refused r)
        ∧ (∀ p, s.port.head? = some (.packet p) → packetInvalid p →
            ∃ why, step s = .refused (.invalidPacket why))
        ∧ ∀ c i r, s.port.head? = some c → readSubmission c = .ok i →
            exec i { s with port := s.port.tail } = .refused r → step s = .refused r

/-- R187: a failed write undoes and skips nothing. Whatever the transport answers, a command that
completes leaves the same buffer, offset, rotate flag, font and `BUSOPEN`. -/
def Obligations.FailuresUndoNothing : Prop :=
  ∀ (i : Instr) (s t : State) (answers : List BusResult) (n : Nat), exec i s = .next t →
    ∃ u, exec i { s with answers := answers, freeCount := n } = .next u
      ∧ u.buf = t.buf ∧ u.off = t.off ∧ u.rot = t.rot ∧ u.font = t.font ∧ u.busOpen = t.busOpen

/-- The conditions of a completed command (R200, R206): `TransportError` exactly when its write was
answered with failure, at most once and last; `GlyphLookupMiss` exactly for WRSTR's characters that are
neither the space nor in the font; `DegenerateScalingRange` exactly for a GRAPH with a sample whose two
bounds are equal. -/
def Obligations.ConditionsOfACommand : Prop :=
  ∀ (i : Instr) (s t : State), exec i s = .next t →
    (∃ new, t.trace = s.trace ++ new
      ∧ ((∃ reg, Condition.transportError reg ∈ conditions i s)
          ↔ ∃ addr reg bytes, Event.write addr reg bytes .fail ∈ new))
      ∧ (∀ reg before after, conditions i s = before ++ Condition.transportError reg :: after →
          after = [] ∧ ∀ r, Condition.transportError r ∉ before)
      ∧ (∀ ch, Condition.glyphLookupMiss ch ∈ conditions i s ↔
          ∃ text x, i = .wrstr text x ∧ ch ∈ text ∧ ch ≠ s.cfg.spaceCode
            ∧ fontLookup s.font ch = none)
      ∧ ∀ q, Condition.degenerateScalingRange q ∈ conditions i s ↔
          ∃ values low high, i = .graph values low high ∧ values ≠ []
            ∧ isLowBound values low q ∧ isHighBound values high q

/-! ### Arithmetic and column memory (00_scope.md R8, 20_memory.md R52) -/

/-- R8: `a mod L` is the unique `r` with `0 ≤ r < L` and `a - r` divisible by `L`. -/
def Obligations.FlooredModulo : Prop :=
  ∀ (a : Int) (l : Nat), 1 ≤ l →
    floorMod a l < l ∧ (l : Int) ∣ a - floorMod a l
      ∧ ∀ r : Nat, r < l → (l : Int) ∣ a - r → r = floorMod a l

/-- R52: `Grow(x)` appends zero columns until `LEN > x`, and nothing if `LEN > x` already. -/
def Obligations.GrowAppendsZeroColumns : Prop :=
  ∀ (m : Memory) (x : Nat), m.wf →
    (m.grow x).len = max m.len (x + 1)
      ∧ (m.grow x).columns = m.columns ++ List.replicate (x + 1 - m.len) 0

/-! ### Framebuffer commands (40_framebuffer.md) -/

/-- R111: SETCOL grows the buffer if needed, writes the one column with all its 8 bits, fills the gap
with zeros, and changes nothing else; `refuse(capacity)` when a finite capacity does not hold column
`x`. -/
def Obligations.SetcolWritesOneColumn : Prop :=
  ∀ (x : Nat) (v : Byte) (s : State), s.buf.wf →
    encodedAs (.setcol x v) 0x06 .fxv
    ∧ (fitsCap s.cfg (x + 1) = true → ∃ t, exec (.setcol x v) s = .next t
      ∧ t.buf.len = max s.buf.len (x + 1) ∧ t.buf.read x = v
      ∧ (∀ i, i ≠ x → t.buf.read i = s.buf.read i)
      ∧ (∀ i, s.buf.len ≤ i → i < x → t.buf.read i = 0)
      ∧ t.off = s.off ∧ t.rot = s.rot ∧ t.err = s.err ∧ t.font = s.font ∧ t.busOpen = s.busOpen
      ∧ t.trace = s.trace ∧ s.Quiet t)
    ∧ (fitsCap s.cfg (x + 1) = false → exec (.setcol x v) s = .refused .capacity)

/-- R112: SETPIX grows as SETCOL does (the spec's decision D5), sets or clears bit `y` of column `x`,
keeps the other 7 bits and every other column, and changes nothing else. -/
def Obligations.SetpixChangesOneBit : Prop :=
  ∀ (x : Nat) (y : Fin 8) (v : Bool) (s : State), s.buf.wf →
    encodedAs (.setpix x y v) 0x07 .fxyv
    ∧ (fitsCap s.cfg (x + 1) = true → ∃ t, exec (.setpix x y v) s = .next t
      ∧ t.buf.len = max s.buf.len (x + 1)
      ∧ (t.buf.read x).getLsbD y.val = v
      ∧ (∀ k, k ≠ y.val → (t.buf.read x).getLsbD k = (s.buf.read x).getLsbD k)
      ∧ (∀ i, i ≠ x → t.buf.read i = s.buf.read i)
      ∧ (∀ i, s.buf.len ≤ i → s.buf.read i = 0)
      ∧ t.off = s.off ∧ t.rot = s.rot ∧ t.err = s.err ∧ t.font = s.font ∧ t.busOpen = s.busOpen
      ∧ t.trace = s.trace ∧ s.Quiet t)
    ∧ (fitsCap s.cfg (x + 1) = false → exec (.setpix x y v) s = .refused .capacity)

/-- Setting and then clearing a pixel leaves its bit 0 and every other bit as it was, so it restores the
column exactly when the bit was 0 (R112's corner case, 90_conflicts.md C13). -/
def Obligations.SetpixPairLeavesBitClear : Prop :=
  ∀ (x : Nat) (y : Fin 8) (s t u : State), s.buf.wf →
    exec (.setpix x y true) s = .next t → exec (.setpix x y false) t = .next u →
    (u.buf.read x).getLsbD y.val = false
      ∧ (∀ k, k ≠ y.val → (u.buf.read x).getLsbD k = (s.buf.read x).getLsbD k)
      ∧ (∀ i, i ≠ x → u.buf.read i = s.buf.read i)
      ∧ (u.buf.read x = s.buf.read x ↔ (s.buf.read x).getLsbD y.val = false)

/-- R113: CLEAR leaves 11 zero columns and offset 0, and nothing else changes. -/
def Obligations.ClearEmptiesBuffer : Prop :=
  ∀ s : State,
    encodedAs .clear 0x0C .f0
    ∧ ∃ t, exec .clear s = .next t
    ∧ t.buf.columns = List.replicate 11 0 ∧ t.buf.len = 11 ∧ (∀ i, t.buf.read i = 0) ∧ t.off = 0
    ∧ t.rot = s.rot ∧ t.err = s.err ∧ t.font = s.font ∧ t.busOpen = s.busOpen
    ∧ t.trace = s.trace ∧ s.Quiet t

/-- R114: SETBUF replaces the whole buffer verbatim and re-reduces the offset (the spec's decision D8),
nothing else changes; fewer than 11 columns are refused (decision D7), and more than a finite capacity
holds. -/
def Obligations.SetbufReplacesBuffer : Prop :=
  ∀ (cols : List Byte) (s : State),
    encodedAs (.setbuf cols) 0x08 .fbuf
    ∧ (11 ≤ cols.length → fitsCap s.cfg cols.length = true → ∃ t, exec (.setbuf cols) s = .next t
      ∧ t.buf.columns = cols ∧ t.buf.len = cols.length ∧ t.buf.wf
      ∧ t.off = s.off % cols.length ∧ (s.off < cols.length → t.off = s.off)
      ∧ t.rot = s.rot ∧ t.err = s.err ∧ t.font = s.font ∧ t.busOpen = s.busOpen
      ∧ t.trace = s.trace ∧ s.Quiet t)
    ∧ (cols.length < 11 → exec (.setbuf cols) s = .refused .shortBuffer)
    ∧ (11 ≤ cols.length → fitsCap s.cfg cols.length = false →
        exec (.setbuf cols) s = .refused .capacity)

/-- R115: BUFLEN responds with `LEN` and changes no state. -/
def Obligations.BuflenResponds : Prop :=
  ∀ s : State,
    encodedAs .buflen 0x09 .f0
    ∧ ∃ t, exec .buflen s = .next t ∧ t.trace = s.trace ++ [.resp s.buf.len]
    ∧ t.buf = s.buf ∧ t.off = s.off ∧ t.rot = s.rot ∧ t.err = s.err ∧ t.font = s.font
    ∧ t.busOpen = s.busOpen ∧ s.Quiet t

/-! ### Window (41_window.md) -/

/-- R130: the two slices of `Window()`, which always has 11 columns. -/
def Obligations.WindowIsTwoSlices : Prop :=
  ∀ (m : Memory) (off : Nat), 11 ≤ m.len → off < m.len →
    (off + 11 ≤ m.len → windowOf m off = (m.columns.drop off).take 11)
      ∧ (m.len < off + 11 →
          windowOf m off = m.columns.drop off ++ m.columns.take (11 - (m.len - off)))
      ∧ (windowOf m off).length = 11

/-- Window position `i` reads `BUF[(OFF + i) mod LEN]`, 11 different columns: the closed form that the
spec derives from the slices (R130, R54). -/
def Obligations.WindowReadsCircularly : Prop :=
  ∀ (m : Memory) (off : Nat), 11 ≤ m.len → off < m.len →
    (∀ i, i < 11 → (windowOf m off)[i]? = some (m.read ((off + i) % m.len)))
      ∧ ∀ i j, i < 11 → j < 11 → (off + i) % m.len = (off + j) % m.len → i = j

/-- R131: bit `k` of `rotate5(c)` is bit `4 - k` of `c` for `k` up to 4, bits 5 to 7 are 0 (the spec's
decision D9), and applying it twice keeps the low 5 bits alone. -/
def Obligations.Rotate5MirrorsRows : Prop :=
  ∀ c : Byte, (∀ k, k < 5 → (rotate5 c).getLsbD k = c.getLsbD (4 - k))
    ∧ (∀ k, 5 ≤ k → (rotate5 c).getLsbD k = false)
    ∧ (rotate5 (rotate5 c)).toNat = c.toNat % 32

/-- R132, R133: the frame has 12 bytes and ends in the terminator; with `ROT = 0` byte `i` is window
column `i`, all 8 bits; with `ROT = 1` it is `rotate5` of window column `10 - i`, below 32. -/
def Obligations.FrameLayout : Prop :=
  ∀ s : State, s.windowDefined →
    s.frame.length = 12 ∧ s.frame[11]? = some 0xFF
      ∧ (s.rot = false → s.frame = windowOf s.buf s.off ++ [0xFF])
      ∧ (s.rot = true → ∀ i, i < 11 →
          ∃ c, (windowOf s.buf s.off)[10 - i]? = some c ∧ s.frame[i]? = some (rotate5 c)
            ∧ (rotate5 c).toNat < 32)

/-- Rotating a window twice gives it back when every column is below 32 (derived in R132). -/
def Obligations.RotationTwiceRestores : Prop :=
  ∀ w : List Byte, (∀ c ∈ w, c.toNat < 32) → rotateWindow (rotateWindow w) = w

/-- R134: SCROLL moves the offset by `d` modulo `LEN` and pushes exactly once, the offset moved whether
or not the push fails; nothing else changes. Before the first INIT it is refused. -/
def Obligations.ScrollMovesOffsetAndPushes : Prop :=
  ∀ (d : Int) (s : State),
    encodedAs (.scroll d) 0x0A .fw
    ∧ (11 ≤ s.buf.len → s.busOpen = true → ∃ t, exec (.scroll d) s = .next t
      ∧ t.off < s.buf.len ∧ (s.buf.len : Int) ∣ s.off + d - t.off
      ∧ t.buf = s.buf ∧ t.rot = s.rot ∧ t.font = s.font ∧ s.PushedOnce t)
    ∧ (s.busOpen = false → exec (.scroll d) s = .refused .busNotOpen)

/-- R135: SCROLLTO sets the offset to `p` modulo `LEN`, the old offset not read, and pushes exactly
once; nothing else changes. Before the first INIT it is refused. -/
def Obligations.ScrolltoSetsOffsetAndPushes : Prop :=
  ∀ (p : Int) (s : State),
    encodedAs (.scrollto p) 0x0B .fw
    ∧ (11 ≤ s.buf.len → s.busOpen = true → ∃ t, exec (.scrollto p) s = .next t
      ∧ t.off < s.buf.len ∧ (s.buf.len : Int) ∣ p - t.off
      ∧ t.buf = s.buf ∧ t.rot = s.rot ∧ t.font = s.font ∧ s.PushedOnce t)
    ∧ (s.busOpen = false → exec (.scrollto p) s = .refused .busNotOpen)

/-- R137: (a) every frame has length 12 and ends in `0xFF`; (b) `rotate5` twice is the identity below
32; (c) SCROLL `d` then SCROLL `-d` restores the offset (no other command between them, so `LEN` is
unchanged); (d) the offset is below `LEN` after either scroll command. -/
def Obligations.ScrollAndFrameProperties : Prop :=
  (∀ s : State, s.windowDefined → s.frame.length = 12 ∧ s.frame.getLast? = some 0xFF)
    ∧ (∀ c : Byte, c.toNat < 32 → rotate5 (rotate5 c) = c)
    ∧ (∀ (d : Int) (s t u : State), s.off < s.buf.len →
        exec (.scroll d) s = .next t → exec (.scroll (-d)) t = .next u → u.off = s.off)
    ∧ ∀ (d : Int) (s t : State),
        (exec (.scroll d) s = .next t ∨ exec (.scrollto d) s = .next t) → t.off < t.buf.len

/-- R136: SETROT writes the flag and nothing else, whether the bus is open or not, and pushes nothing.
The whole command is the spec's decision D4. -/
def Obligations.SetrotSetsFlagOnly : Prop :=
  ∀ (r : Bool) (s : State),
    encodedAs (.setrot r) 0x10 .fb
    ∧ ∃ t, exec (.setrot r) s = .next t ∧ t.rot = r
    ∧ t.buf = s.buf ∧ t.off = s.off ∧ t.err = s.err ∧ t.font = s.font ∧ t.busOpen = s.busOpen
    ∧ t.trace = s.trace ∧ s.Quiet t

/-! ### Text (42_font.md) -/

/-- R150, R151: a space, whatever the font holds for it, and a code absent from the font write three
zero columns; any other character writes its glyph and one zero spacer. -/
def Obligations.CharacterColumns : Prop :=
  ∀ (space : Nat) (f : Font) (ch : Nat),
    (ch = space → charColumns space f ch = [0, 0, 0])
      ∧ (fontLookup f ch = none → charColumns space f ch = [0, 0, 0])
      ∧ ∀ g, ch ≠ space → fontLookup f ch = some g → charColumns space f ch = g ++ [0]

/-- R151: WRSTR writes the columns of its characters, in order, from `start_x` on, over whatever was
there, fills a gap with zeros, lengthens the buffer when the text is not empty, and pushes exactly once;
every other column, the offset, the rotate flag and the font are unchanged. Before the first INIT it is
refused, and so is a text that a finite capacity does not hold. -/
def Obligations.WrstrRendersAndPushesOnce : Prop :=
  ∀ (text : List Nat) (x : Nat) (s : State), s.buf.wf →
    encodedAs (.wrstr text x) 0x04 .fstr
    ∧ (s.windowDefined → s.busOpen = true →
      (text = [] ∨ fitsCap s.cfg (x + textWidth s.cfg.spaceCode s.font text) = true) →
      ∃ t, exec (.wrstr text x) s = .next t
        ∧ t.buf.len = (if text = [] then s.buf.len
            else max s.buf.len (x + textWidth s.cfg.spaceCode s.font text))
        ∧ (∀ i, i < textWidth s.cfg.spaceCode s.font text →
            (text.flatMap (charColumns s.cfg.spaceCode s.font))[i]? = some (t.buf.read (x + i)))
        ∧ (∀ i, (i < x ∨ x + textWidth s.cfg.spaceCode s.font text ≤ i) →
            t.buf.read i = s.buf.read i)
        ∧ (∀ i, s.buf.len ≤ i → i < x → t.buf.read i = 0)
        ∧ t.off = s.off ∧ t.rot = s.rot ∧ t.font = s.font ∧ s.PushedOnce t)
    ∧ (s.busOpen = false → exec (.wrstr text x) s = .refused .busNotOpen)
    ∧ (s.busOpen = true → text ≠ [] →
        fitsCap s.cfg (x + textWidth s.cfg.spaceCode s.font text) = false →
        exec (.wrstr text x) s = .refused .capacity)

/-- The width of a text is the sum over its characters of 3 for a blank and the glyph's width plus 1
otherwise, and it is the number of columns the text writes (R152). -/
def Obligations.TextWidthIsColumnsWritten : Prop :=
  ∀ (space : Nat) (f : Font) (text : List Nat),
    textWidth space f text =
        (text.map fun ch => if ch = space then 3
          else match fontLookup f ch with
            | none => 3
            | some g => g.length + 1).sum
      ∧ (text.flatMap (charColumns space f)).length = textWidth space f text

/-- An empty text, an empty graph and a scroll by 0 are each the same as UPDATE (derived in R185; R151,
R170). -/
def Obligations.EmptyRendersEqualUpdate : Prop :=
  ∀ s : State, (∀ x, exec (.wrstr [] x) s = exec .update s)
    ∧ (∀ low high, exec (.graph [] low high) s = exec .update s)
    ∧ (s.off < s.buf.len → exec (.scroll 0) s = exec .update s)

/-- R154: LOADFONT replaces the whole map by the font table it is given (its list of entries, codes
strictly increasing), entries of the old font that it lacks gone; nothing else changes and nothing is
pushed, whether the bus is open or not. -/
def Obligations.LoadfontOfATable : Prop :=
  ∀ (f : Font) (s : State), fontOrdered f →
    encodedAs (.loadfont f) 0x0D .ffnt
    ∧ ∃ t, exec (.loadfont f) s = .next t ∧ t.font = f
      ∧ t.buf = s.buf ∧ t.off = s.off ∧ t.rot = s.rot ∧ t.err = s.err ∧ t.busOpen = s.busOpen
      ∧ t.trace = s.trace ∧ s.Quiet t

/-- LOADFONT of any list of entries: afterwards every code has exactly what the list gives it; nothing
else changes and nothing is pushed. The font is kept in canonical form, and of two entries for one code
the first counts: both are the model's choice (assumption log entry 7), since a font table of R154 lists
no code twice. -/
def Obligations.LoadfontReplacesMap : Prop :=
  ∀ (f : Font) (s : State),
    encodedAs (.loadfont f) 0x0D .ffnt
    ∧ ∃ t, exec (.loadfont f) s = .next t
    ∧ (∀ ch, fontLookup t.font ch = fontLookup f ch) ∧ fontOrdered t.font
    ∧ (fontOrdered f → t.font = f)
    ∧ t.buf = s.buf ∧ t.off = s.off ∧ t.rot = s.rot ∧ t.err = s.err ∧ t.busOpen = s.busOpen
    ∧ t.trace = s.trace ∧ s.Quiet t

/-! ### Graph (43_graph.md) -/

/-- R168: GRAPH resolves `auto` bounds over all samples, writes column `i` with the mask of sample
`i`'s level, from column 0 on, and pushes exactly once; the columns after the last sample, the offset,
the rotate flag and the font are unchanged. Before the first INIT it is refused, and so are more
samples than a finite capacity holds. -/
def Obligations.GraphRendersAndPushesOnce : Prop :=
  ∀ (values : List Rat) (low high : Option Rat) (s : State), s.buf.wf →
    encodedAs (.graph values low high) 0x05 .fgr
    ∧ (s.windowDefined → s.busOpen = true → fitsCap s.cfg values.length = true →
      ∃ t, exec (.graph values low high) s = .next t
        ∧ t.buf.len = max s.buf.len values.length
        ∧ (values ≠ [] → ∃ lo hi,
            isLowBound values low lo ∧ isHighBound values high hi
            ∧ ∀ i v, values[i]? = some v → t.buf.read i = graphMask (graphLevel lo hi v))
        ∧ (∀ i, values.length ≤ i → t.buf.read i = s.buf.read i)
        ∧ t.off = s.off ∧ t.rot = s.rot ∧ t.font = s.font ∧ s.PushedOnce t)
    ∧ (s.busOpen = false → exec (.graph values low high) s = .refused .busNotOpen)
    ∧ (s.busOpen = true → fitsCap s.cfg values.length = false →
        exec (.graph values low high) s = .refused .capacity)

/-- R166: with a non-zero span the level is the exact scaled sample truncated toward zero, not clamped;
with span 0 it is 5 (R169, the spec's decision D10). -/
def Obligations.GraphLevelTruncates : Prop :=
  ∀ low high v : Rat,
    (high - low = 0 → graphLevel low high v = 5)
      ∧ (high - low ≠ 0 →
          (0 ≤ (v - low) / (high - low) * 5 →
            (graphLevel low high v : Rat) ≤ (v - low) / (high - low) * 5
              ∧ (v - low) / (high - low) * 5 < (graphLevel low high v : Rat) + 1)
          ∧ ((v - low) / (high - low) * 5 ≤ 0 →
            (v - low) / (high - low) * 5 ≤ (graphLevel low high v : Rat)
              ∧ (graphLevel low high v : Rat) - 1 < (v - low) / (high - low) * 5))

/-- With integer operands the level is one integer division rounding toward zero (derived in R165). -/
def Obligations.GraphLevelOfIntegers : Prop :=
  ∀ low high v : Int, high ≠ low →
    graphLevel (low : Rat) (high : Rat) (v : Rat) = (5 * (v - low)).tdiv (high - low)

/-- R167: the five masks, as printed. -/
def Obligations.GraphMaskTable : Prop :=
  ∀ n : Int, (n ≤ 1 → graphMask n = 0) ∧ (n = 2 → graphMask n = 16) ∧ (n = 3 → graphMask n = 24)
    ∧ (n = 4 → graphMask n = 28) ∧ (5 ≤ n → graphMask n = 31)

/-- R169: when the bounds are equal (given so, or `auto` over samples that are all equal, a single
sample among them) every column of the graph is full, and the command completes with its one push; the
condition leaves no other trace. That all columns are full is the spec's decision D10. -/
def Obligations.DegenerateRangeFillsColumns : Prop :=
  (∀ (values : List Rat) (low high : Option Rat) (q : Rat) (s : State), s.buf.wf → s.windowDefined →
      s.busOpen = true → fitsCap s.cfg values.length = true → values ≠ [] →
      isLowBound values low q → isHighBound values high q →
      ∃ t, exec (.graph values low high) s = .next t
        ∧ (∀ i, i < values.length → t.buf.read i = 31)
        ∧ (∀ i, values.length ≤ i → t.buf.read i = s.buf.read i)
        ∧ t.buf.len = max s.buf.len values.length
        ∧ t.off = s.off ∧ t.rot = s.rot ∧ t.font = s.font ∧ s.PushedOnce t)
    ∧ ∀ (v : Rat) (n : Nat), isLowBound (List.replicate (n + 1) v) none v
        ∧ isHighBound (List.replicate (n + 1) v) none v

/-! ### Driver (44_driver.md) -/

/-- R182: INIT opens the bus, resets buffer, offset, count and rotate flag, keeps the font, and ends with
the mode-set write, whose failure counts from 0 (R36). -/
def Obligations.InitOpensAndResets : Prop :=
  ∀ s : State,
    encodedAs .init 0x01 .f0
    ∧ ∃ t, exec .init s = .next t
    ∧ t.trace = s.trace ++ .opened s.cfg.busChannel :: writeEvents s 0 .modeSet [s.cfg.mode5x11]
    ∧ t.busOpen = true ∧ t.buf.columns = List.replicate 11 0 ∧ t.buf.len = 11 ∧ t.buf.wf
    ∧ t.off = 0 ∧ t.rot = false ∧ t.font = s.font
    ∧ (s.nextAnswer = .ok → t.err = 0) ∧ (s.cfg.wf → s.nextAnswer = .fail → t.err = 1)
    ∧ s.Answered t

/-- R183: SETMODE writes the fixed constant to the mode register whatever its operand is, a failure is
counted, and nothing else changes. Before the first INIT it is refused. -/
def Obligations.SetmodeWritesConstant : Prop :=
  ∀ (m : Byte) (s : State),
    encodedAs (.setmode m) 0x02 .fb
    ∧ (s.busOpen = true → ∃ t, exec (.setmode m) s = .next t
      ∧ t.trace = s.trace ++ writeEvents s s.err .modeSet [s.cfg.mode5x11]
      ∧ t.err = errAfter s s.err ∧ t.buf = s.buf ∧ t.off = s.off ∧ t.rot = s.rot ∧ t.font = s.font
      ∧ t.busOpen = s.busOpen ∧ s.Answered t)
    ∧ (s.busOpen = false → exec (.setmode m) s = .refused .busNotOpen)

/-- R184: SETBRT writes its level unchanged to the brightness register, a failure is counted, and
nothing else changes. Before the first INIT it is refused. -/
def Obligations.SetbrtWritesLevel : Prop :=
  ∀ (b : Byte) (s : State),
    encodedAs (.setbrt b) 0x03 .fb
    ∧ (s.busOpen = true → ∃ t, exec (.setbrt b) s = .next t
      ∧ t.trace = s.trace ++ writeEvents s s.err .brightnessSet [b]
      ∧ t.err = errAfter s s.err ∧ t.buf = s.buf ∧ t.off = s.off ∧ t.rot = s.rot ∧ t.font = s.font
      ∧ t.busOpen = s.busOpen ∧ s.Answered t)
    ∧ (s.busOpen = false → exec (.setbrt b) s = .refused .busNotOpen)

/-- R185: UPDATE pushes the current frame once, a failure is counted, and nothing else changes. Before
the first INIT it is refused. -/
def Obligations.UpdatePushesFrame : Prop :=
  ∀ s : State,
    encodedAs .update 0x0F .f0
    ∧ (s.windowDefined → s.busOpen = true → ∃ t, exec .update s = .next t
      ∧ t.buf = s.buf ∧ t.off = s.off ∧ t.rot = s.rot ∧ t.font = s.font ∧ s.PushedOnce t)
    ∧ (s.busOpen = false → exec .update s = .refused .busNotOpen)

/-- R186: IOERR responds with `ERR`, does not clear it, and changes no state. -/
def Obligations.IoerrResponds : Prop :=
  ∀ s : State,
    encodedAs .ioerr 0x0E .f0
    ∧ ∃ t, exec .ioerr s = .next t ∧ t.trace = s.trace ++ [.resp s.err]
    ∧ t.err = s.err ∧ t.buf = s.buf ∧ t.off = s.off ∧ t.rot = s.rot ∧ t.font = s.font
    ∧ t.busOpen = s.busOpen ∧ s.Quiet t

/-- The accounting of one bus write (R180): the one `Write` event; on success nothing else; on failure
the count one up (stopped at a finite `ERR_MAX`), and one `Notice` exactly when the count was 9. -/
def Obligations.BusWriteAccounting : Prop :=
  ∀ (reg : BusReg) (bytes : List Byte) (s : State),
    (s.busOpen = false → busWrite reg bytes s = .refused .busNotOpen)
      ∧ (s.busOpen = true → ∃ t, busWrite reg bytes s = .next t
        ∧ (s.nextAnswer = .ok → t.err = s.err
            ∧ t.trace = s.trace ++ [.write s.cfg.devAddr (regNumber s.cfg reg) bytes .ok])
        ∧ (s.nextAnswer = .fail →
            (s.cfg.errMax = none → t.err = s.err + 1)
            ∧ (∀ m, s.cfg.errMax = some m → t.err = min (s.err + 1) m)
            ∧ (s.err ≠ 9 →
                t.trace = s.trace ++ [.write s.cfg.devAddr (regNumber s.cfg reg) bytes .fail])
            ∧ (s.err = 9 → t.trace =
                s.trace ++ [.write s.cfg.devAddr (regNumber s.cfg reg) bytes .fail, .notice]))
        ∧ t.buf = s.buf ∧ t.off = s.off ∧ t.rot = s.rot ∧ t.font = s.font ∧ t.busOpen = s.busOpen
        ∧ s.Answered t)

/-- A response on the port is four bytes, little-endian, of `min(v, 2^32 - 1)` (R88). -/
def Obligations.ResponseBytesSaturate : Prop :=
  ∀ v : Nat, ∃ b0 b1 b2 b3, responseBytes v = [b0, b1, b2, b3]
    ∧ u32 b0 b1 b2 b3 = min v (2 ^ 32 - 1)
end

