-- ==== Sys2Proof/Laws/State.lean ====
section
/-! SUPPORT. One lemma per field per update of the state, true by rfl. -/

namespace Sys2Proof.Machine

@[simp] theorem State.setBuf_buf (s : State) (m : Memory) : (s.setBuf m).buf = m := rfl
@[simp] theorem State.setBuf_off (s : State) (m : Memory) : (s.setBuf m).off = s.off := rfl
@[simp] theorem State.setBuf_rot (s : State) (m : Memory) : (s.setBuf m).rot = s.rot := rfl
@[simp] theorem State.setBuf_err (s : State) (m : Memory) : (s.setBuf m).err = s.err := rfl
@[simp] theorem State.setBuf_font (s : State) (m : Memory) : (s.setBuf m).font = s.font := rfl
@[simp] theorem State.setBuf_busOpen (s : State) (m : Memory) : (s.setBuf m).busOpen = s.busOpen := rfl
@[simp] theorem State.setBuf_trace (s : State) (m : Memory) : (s.setBuf m).trace = s.trace := rfl
@[simp] theorem State.setBuf_cfg (s : State) (m : Memory) : (s.setBuf m).cfg = s.cfg := rfl
@[simp] theorem State.setBuf_port (s : State) (m : Memory) : (s.setBuf m).port = s.port := rfl
@[simp] theorem State.setBuf_answers (s : State) (m : Memory) : (s.setBuf m).answers = s.answers := rfl
@[simp] theorem State.setBuf_freeCount (s : State) (m : Memory) : (s.setBuf m).freeCount = s.freeCount := rfl

@[simp] theorem State.setOff_buf (s : State) (o : Nat) : (s.setOff o).buf = s.buf := rfl
@[simp] theorem State.setOff_off (s : State) (o : Nat) : (s.setOff o).off = o := rfl
@[simp] theorem State.setOff_rot (s : State) (o : Nat) : (s.setOff o).rot = s.rot := rfl
@[simp] theorem State.setOff_err (s : State) (o : Nat) : (s.setOff o).err = s.err := rfl
@[simp] theorem State.setOff_font (s : State) (o : Nat) : (s.setOff o).font = s.font := rfl
@[simp] theorem State.setOff_busOpen (s : State) (o : Nat) : (s.setOff o).busOpen = s.busOpen := rfl
@[simp] theorem State.setOff_trace (s : State) (o : Nat) : (s.setOff o).trace = s.trace := rfl
@[simp] theorem State.setOff_cfg (s : State) (o : Nat) : (s.setOff o).cfg = s.cfg := rfl
@[simp] theorem State.setOff_port (s : State) (o : Nat) : (s.setOff o).port = s.port := rfl
@[simp] theorem State.setOff_answers (s : State) (o : Nat) : (s.setOff o).answers = s.answers := rfl
@[simp] theorem State.setOff_freeCount (s : State) (o : Nat) : (s.setOff o).freeCount = s.freeCount := rfl

@[simp] theorem State.setRot_buf (s : State) (r : Bool) : (s.setRot r).buf = s.buf := rfl
@[simp] theorem State.setRot_off (s : State) (r : Bool) : (s.setRot r).off = s.off := rfl
@[simp] theorem State.setRot_rot (s : State) (r : Bool) : (s.setRot r).rot = r := rfl
@[simp] theorem State.setRot_err (s : State) (r : Bool) : (s.setRot r).err = s.err := rfl
@[simp] theorem State.setRot_font (s : State) (r : Bool) : (s.setRot r).font = s.font := rfl
@[simp] theorem State.setRot_busOpen (s : State) (r : Bool) : (s.setRot r).busOpen = s.busOpen := rfl
@[simp] theorem State.setRot_trace (s : State) (r : Bool) : (s.setRot r).trace = s.trace := rfl
@[simp] theorem State.setRot_cfg (s : State) (r : Bool) : (s.setRot r).cfg = s.cfg := rfl
@[simp] theorem State.setRot_port (s : State) (r : Bool) : (s.setRot r).port = s.port := rfl
@[simp] theorem State.setRot_answers (s : State) (r : Bool) : (s.setRot r).answers = s.answers := rfl
@[simp] theorem State.setRot_freeCount (s : State) (r : Bool) : (s.setRot r).freeCount = s.freeCount := rfl

@[simp] theorem State.setErr_buf (s : State) (n : Nat) : (s.setErr n).buf = s.buf := rfl
@[simp] theorem State.setErr_off (s : State) (n : Nat) : (s.setErr n).off = s.off := rfl
@[simp] theorem State.setErr_rot (s : State) (n : Nat) : (s.setErr n).rot = s.rot := rfl
@[simp] theorem State.setErr_err (s : State) (n : Nat) : (s.setErr n).err = n := rfl
@[simp] theorem State.setErr_font (s : State) (n : Nat) : (s.setErr n).font = s.font := rfl
@[simp] theorem State.setErr_busOpen (s : State) (n : Nat) : (s.setErr n).busOpen = s.busOpen := rfl
@[simp] theorem State.setErr_trace (s : State) (n : Nat) : (s.setErr n).trace = s.trace := rfl
@[simp] theorem State.setErr_cfg (s : State) (n : Nat) : (s.setErr n).cfg = s.cfg := rfl
@[simp] theorem State.setErr_port (s : State) (n : Nat) : (s.setErr n).port = s.port := rfl
@[simp] theorem State.setErr_answers (s : State) (n : Nat) : (s.setErr n).answers = s.answers := rfl
@[simp] theorem State.setErr_freeCount (s : State) (n : Nat) : (s.setErr n).freeCount = s.freeCount := rfl

@[simp] theorem State.setFont_buf (s : State) (f : Font) : (s.setFont f).buf = s.buf := rfl
@[simp] theorem State.setFont_off (s : State) (f : Font) : (s.setFont f).off = s.off := rfl
@[simp] theorem State.setFont_rot (s : State) (f : Font) : (s.setFont f).rot = s.rot := rfl
@[simp] theorem State.setFont_err (s : State) (f : Font) : (s.setFont f).err = s.err := rfl
@[simp] theorem State.setFont_font (s : State) (f : Font) : (s.setFont f).font = f := rfl
@[simp] theorem State.setFont_busOpen (s : State) (f : Font) : (s.setFont f).busOpen = s.busOpen := rfl
@[simp] theorem State.setFont_trace (s : State) (f : Font) : (s.setFont f).trace = s.trace := rfl
@[simp] theorem State.setFont_cfg (s : State) (f : Font) : (s.setFont f).cfg = s.cfg := rfl
@[simp] theorem State.setFont_port (s : State) (f : Font) : (s.setFont f).port = s.port := rfl
@[simp] theorem State.setFont_answers (s : State) (f : Font) : (s.setFont f).answers = s.answers := rfl
@[simp] theorem State.setFont_freeCount (s : State) (f : Font) : (s.setFont f).freeCount = s.freeCount := rfl

@[simp] theorem State.setBusOpen_buf (s : State) (b : Bool) : (s.setBusOpen b).buf = s.buf := rfl
@[simp] theorem State.setBusOpen_off (s : State) (b : Bool) : (s.setBusOpen b).off = s.off := rfl
@[simp] theorem State.setBusOpen_rot (s : State) (b : Bool) : (s.setBusOpen b).rot = s.rot := rfl
@[simp] theorem State.setBusOpen_err (s : State) (b : Bool) : (s.setBusOpen b).err = s.err := rfl
@[simp] theorem State.setBusOpen_font (s : State) (b : Bool) : (s.setBusOpen b).font = s.font := rfl
@[simp] theorem State.setBusOpen_busOpen (s : State) (b : Bool) : (s.setBusOpen b).busOpen = b := rfl
@[simp] theorem State.setBusOpen_trace (s : State) (b : Bool) : (s.setBusOpen b).trace = s.trace := rfl
@[simp] theorem State.setBusOpen_cfg (s : State) (b : Bool) : (s.setBusOpen b).cfg = s.cfg := rfl
@[simp] theorem State.setBusOpen_port (s : State) (b : Bool) : (s.setBusOpen b).port = s.port := rfl
@[simp] theorem State.setBusOpen_answers (s : State) (b : Bool) : (s.setBusOpen b).answers = s.answers := rfl
@[simp] theorem State.setBusOpen_freeCount (s : State) (b : Bool) : (s.setBusOpen b).freeCount = s.freeCount := rfl

@[simp] theorem State.emit_buf (s : State) (e : Event) : (s.emit e).buf = s.buf := rfl
@[simp] theorem State.emit_off (s : State) (e : Event) : (s.emit e).off = s.off := rfl
@[simp] theorem State.emit_rot (s : State) (e : Event) : (s.emit e).rot = s.rot := rfl
@[simp] theorem State.emit_err (s : State) (e : Event) : (s.emit e).err = s.err := rfl
@[simp] theorem State.emit_font (s : State) (e : Event) : (s.emit e).font = s.font := rfl
@[simp] theorem State.emit_busOpen (s : State) (e : Event) : (s.emit e).busOpen = s.busOpen := rfl
@[simp] theorem State.emit_trace (s : State) (e : Event) : (s.emit e).trace = s.trace ++ [e] := rfl
@[simp] theorem State.emit_cfg (s : State) (e : Event) : (s.emit e).cfg = s.cfg := rfl
@[simp] theorem State.emit_port (s : State) (e : Event) : (s.emit e).port = s.port := rfl
@[simp] theorem State.emit_answers (s : State) (e : Event) : (s.emit e).answers = s.answers := rfl
@[simp] theorem State.emit_freeCount (s : State) (e : Event) : (s.emit e).freeCount = s.freeCount := rfl

@[simp] theorem State.dropAnswer_buf (s : State) : s.dropAnswer.buf = s.buf := rfl
@[simp] theorem State.dropAnswer_off (s : State) : s.dropAnswer.off = s.off := rfl
@[simp] theorem State.dropAnswer_rot (s : State) : s.dropAnswer.rot = s.rot := rfl
@[simp] theorem State.dropAnswer_err (s : State) : s.dropAnswer.err = s.err := rfl
@[simp] theorem State.dropAnswer_font (s : State) : s.dropAnswer.font = s.font := rfl
@[simp] theorem State.dropAnswer_busOpen (s : State) : s.dropAnswer.busOpen = s.busOpen := rfl
@[simp] theorem State.dropAnswer_trace (s : State) : s.dropAnswer.trace = s.trace := rfl
@[simp] theorem State.dropAnswer_cfg (s : State) : s.dropAnswer.cfg = s.cfg := rfl
@[simp] theorem State.dropAnswer_port (s : State) : s.dropAnswer.port = s.port := rfl
@[simp] theorem State.dropAnswer_answers (s : State) : s.dropAnswer.answers = s.answers.tail := rfl
@[simp] theorem State.dropAnswer_freeCount (s : State) : s.dropAnswer.freeCount = s.freeCount + (if s.answers.isEmpty then 1 else 0) := rfl

@[simp] theorem State.accept_buf (s : State) : s.accept.buf = s.buf := rfl
@[simp] theorem State.accept_off (s : State) : s.accept.off = s.off := rfl
@[simp] theorem State.accept_rot (s : State) : s.accept.rot = s.rot := rfl
@[simp] theorem State.accept_err (s : State) : s.accept.err = s.err := rfl
@[simp] theorem State.accept_font (s : State) : s.accept.font = s.font := rfl
@[simp] theorem State.accept_busOpen (s : State) : s.accept.busOpen = s.busOpen := rfl
@[simp] theorem State.accept_trace (s : State) : s.accept.trace = s.trace := rfl
@[simp] theorem State.accept_cfg (s : State) : s.accept.cfg = s.cfg := rfl
@[simp] theorem State.accept_port (s : State) : s.accept.port = s.port.tail := rfl
@[simp] theorem State.accept_answers (s : State) : s.accept.answers = s.answers := rfl
@[simp] theorem State.accept_freeCount (s : State) : s.accept.freeCount = s.freeCount := rfl

@[simp] theorem State.submit_buf (s : State) (c : Submission) : (s.submit c).buf = s.buf := rfl
@[simp] theorem State.submit_off (s : State) (c : Submission) : (s.submit c).off = s.off := rfl
@[simp] theorem State.submit_rot (s : State) (c : Submission) : (s.submit c).rot = s.rot := rfl
@[simp] theorem State.submit_err (s : State) (c : Submission) : (s.submit c).err = s.err := rfl
@[simp] theorem State.submit_font (s : State) (c : Submission) : (s.submit c).font = s.font := rfl
@[simp] theorem State.submit_busOpen (s : State) (c : Submission) : (s.submit c).busOpen = s.busOpen := rfl
@[simp] theorem State.submit_trace (s : State) (c : Submission) : (s.submit c).trace = s.trace := rfl
@[simp] theorem State.submit_cfg (s : State) (c : Submission) : (s.submit c).cfg = s.cfg := rfl
@[simp] theorem State.submit_port (s : State) (c : Submission) : (s.submit c).port = c :: s.port := rfl
@[simp] theorem State.submit_answers (s : State) (c : Submission) : (s.submit c).answers = s.answers := rfl
@[simp] theorem State.submit_freeCount (s : State) (c : Submission) : (s.submit c).freeCount = s.freeCount := rfl

@[simp] theorem State.opened_buf (s : State) : s.opened.buf = Memory.blank := rfl
@[simp] theorem State.opened_off (s : State) : s.opened.off = 0 := rfl
@[simp] theorem State.opened_rot (s : State) : s.opened.rot = false := rfl
@[simp] theorem State.opened_err (s : State) : s.opened.err = 0 := rfl
@[simp] theorem State.opened_font (s : State) : s.opened.font = s.font := rfl
@[simp] theorem State.opened_busOpen (s : State) : s.opened.busOpen = true := rfl
@[simp] theorem State.opened_trace (s : State) : s.opened.trace = s.trace ++ [.opened s.cfg.busChannel] := rfl
@[simp] theorem State.opened_cfg (s : State) : s.opened.cfg = s.cfg := rfl
@[simp] theorem State.opened_port (s : State) : s.opened.port = s.port := rfl
@[simp] theorem State.opened_answers (s : State) : s.opened.answers = s.answers := rfl
@[simp] theorem State.opened_freeCount (s : State) : s.opened.freeCount = s.freeCount := rfl

@[simp] theorem State.accept_submit (s : State) (c : Submission) : (s.submit c).accept = s := rfl

end Sys2Proof.Machine
end

