-- ==== Sys2Proof/Laws/Memory.lean ====
section
/-! SUPPORT. The column memory: read after write, growth, replacement, and the canonical form kept by
every operation (spec/20_memory.md R52, R53). -/

namespace Sys2Proof.Machine

/-! ### Cells -/

theorem cellsRead_of_lt {cells : List Host.Cell} {i : Nat} (h : ∀ c ∈ cells, i < c.1) :
    cellsRead cells i = 0 := by
  induction cells with
  | nil => rfl
  | cons c cells ih =>
    obtain ⟨k, w⟩ := c
    have hk : i < k := h (k, w) (by simp)
    have : ¬ k = i := by omega
    simp [cellsRead, this, ih fun c hc => h c (by simp [hc])]

theorem cellsRead_of_gt {cells : List Host.Cell} {i : Nat} (h : ∀ c ∈ cells, c.1 < i) :
    cellsRead cells i = 0 := by
  induction cells with
  | nil => rfl
  | cons c cells ih =>
    obtain ⟨k, w⟩ := c
    have hk : k < i := h (k, w) (by simp)
    have : ¬ k = i := by omega
    simp [cellsRead, this, ih fun c hc => h c (by simp [hc])]

/-- Reading after a write: the value written at its index, everything else as before. -/
theorem cellsRead_cellsWrite {cells : List Host.Cell} (h : cells.Pairwise fun a b => a.1 < b.1)
    (x : Nat) (v : Byte) (i : Nat) :
    cellsRead (cellsWrite x v cells) i = if i = x then v else cellsRead cells i := by
  induction cells with
  | nil =>
    by_cases hv : v = 0#8 <;> by_cases hi : i = x <;> simp [cellsWrite, cellsRead, hv, hi]
    exact fun e => absurd e.symm hi
  | cons c cells ih =>
    obtain ⟨k, w⟩ := c
    obtain ⟨hk, hp⟩ := List.pairwise_cons.1 h
    have hk : ∀ c ∈ cells, k < c.1 := hk
    by_cases h1 : k < x
    · by_cases h2 : k = i
      · subst h2
        have : ¬ k = x := by omega
        simp [cellsWrite, cellsRead, h1, this]
      · simp [cellsWrite, cellsRead, h1, h2, ih hp]
    · by_cases h3 : k = x
      · subst h3
        by_cases hv : v = 0#8
        · by_cases hi : i = k
          · subst hi
            simp [cellsWrite, hv, cellsRead_of_lt hk]
          · have : ¬ k = i := fun e => hi e.symm
            simp [cellsWrite, cellsRead, hv, hi, this]
        · by_cases hi : i = k
          · subst hi; simp [cellsWrite, cellsRead, hv]
          · have : ¬ k = i := fun e => hi e.symm
            simp [cellsWrite, cellsRead, hv, hi, this]
      · have hx : x < k := by omega
        have hz : ∀ c ∈ (k, w) :: cells, x < c.1 := by
          intro c hc
          rcases List.mem_cons.1 hc with rfl | hc
          · exact hx
          · exact Nat.lt_trans hx (hk c hc)
        by_cases hv : v = 0#8
        · by_cases hi : i = x
          · subst hi
            simp [cellsWrite, h1, h3, hv, cellsRead_of_lt hz]
          · simp [cellsWrite, h1, h3, hv, hi]
        · by_cases hi : i = x
          · subst hi; simp [cellsWrite, cellsRead, h1, h3, hv]
          · have : ¬ x = i := fun e => hi e.symm
            simp [cellsWrite, cellsRead, h1, h3, hv, hi, this]

/-- A cell after a write is the written one or an old one. -/
theorem mem_cellsWrite {cells : List Host.Cell} {x : Nat} {v : Byte} {c : Host.Cell}
    (h : c ∈ cellsWrite x v cells) : (c = (x, v) ∧ v ≠ 0) ∨ c ∈ cells := by
  induction cells with
  | nil =>
    simp only [cellsWrite] at h
    split at h
    · simp at h
    · exact .inl ⟨by simpa using h, ‹_›⟩
  | cons d cells ih =>
    obtain ⟨k, w⟩ := d
    simp only [cellsWrite] at h
    split at h
    · rcases List.mem_cons.1 h with rfl | h
      · simp
      · exact (ih h).imp_right fun h => by simp [h]
    · split at h <;> split at h
      · simp [h]
      · rcases List.mem_cons.1 h with rfl | h
        · exact .inl ⟨rfl, ‹_›⟩
        · simp [h]
      · exact .inr h
      · rcases List.mem_cons.1 h with rfl | h
        · exact .inl ⟨rfl, ‹_›⟩
        · exact .inr h

theorem pairwise_cellsWrite {cells : List Host.Cell} (h : cells.Pairwise fun a b => a.1 < b.1)
    (x : Nat) (v : Byte) : (cellsWrite x v cells).Pairwise fun a b => a.1 < b.1 := by
  induction cells with
  | nil => by_cases hv : v = 0#8 <;> simp [cellsWrite, hv]
  | cons d cells ih =>
    obtain ⟨k, w⟩ := d
    obtain ⟨hk, hp⟩ := List.pairwise_cons.1 h
    by_cases h1 : k < x
    · simp only [cellsWrite, h1, if_true]
      refine List.pairwise_cons.2 ⟨fun c hc => ?_, ih hp⟩
      rcases mem_cellsWrite hc with ⟨rfl, -⟩ | hc
      · exact h1
      · exact hk c hc
    · by_cases h3 : k = x
      · subst h3
        by_cases hv : v = 0#8
        · simp [cellsWrite, hv, hp]
        · simp only [cellsWrite, h1, if_true, if_false, BitVec.ofNat_eq_ofNat, hv]
          exact List.pairwise_cons.2 ⟨hk, hp⟩
      · have hx : x < k := by omega
        by_cases hv : v = 0#8
        · simp only [cellsWrite, h1, h3, BitVec.ofNat_eq_ofNat, hv, if_true, if_false]; exact h
        · simp only [cellsWrite, h1, h3, BitVec.ofNat_eq_ofNat, hv, if_false]
          refine List.pairwise_cons.2 ⟨fun c hc => ?_, h⟩
          rcases List.mem_cons.1 hc with rfl | hc
          · exact hx
          · exact Nat.lt_trans hx (hk c hc)

theorem mem_cellsOf {cols : List Byte} {i : Nat} {c : Host.Cell} (h : c ∈ cellsOf i cols) :
    c.2 ≠ 0 ∧ i ≤ c.1 ∧ c.1 < i + cols.length := by
  induction cols generalizing i with
  | nil => simp [cellsOf] at h
  | cons v cols ih =>
    by_cases hv : v = 0#8
    · have := ih (i := i + 1) (by simpa [cellsOf, hv] using h)
      simp only [List.length_cons]; exact ⟨this.1, by omega, by omega⟩
    · simp only [cellsOf, BitVec.ofNat_eq_ofNat, hv, if_false, List.mem_cons] at h
      simp only [List.length_cons]
      rcases h with rfl | h
      · exact ⟨hv, by simp, by simp⟩
      · have := ih h; exact ⟨this.1, by omega, by omega⟩

theorem pairwise_cellsOf (i : Nat) (cols : List Byte) :
    (cellsOf i cols).Pairwise fun a b => a.1 < b.1 := by
  induction cols generalizing i with
  | nil => simp [cellsOf]
  | cons v cols ih =>
    by_cases hv : v = 0#8
    · simp only [cellsOf, BitVec.ofNat_eq_ofNat, hv, if_true]; exact ih _
    · simp only [cellsOf, BitVec.ofNat_eq_ofNat, hv, if_false]
      refine List.pairwise_cons.2 ⟨fun c hc => ?_, ih _⟩
      have := (mem_cellsOf hc).2.1
      show i < c.1
      omega

theorem cellsRead_cellsOf (i : Nat) (cols : List Byte) (j : Nat) :
    cellsRead (cellsOf i cols) (i + j) = cols.getD j 0 := by
  induction cols generalizing i j with
  | nil => simp [cellsOf, cellsRead]
  | cons v cols ih =>
    cases j with
    | zero =>
      by_cases hv : v = 0#8
      · have : cellsRead (cellsOf (i + 1) cols) i = 0 :=
          cellsRead_of_lt fun c hc => by have := (mem_cellsOf hc).2.1; omega
        simp [cellsOf, hv, this]
      · simp [cellsOf, cellsRead, hv]
    | succ j =>
      have e : i + (j + 1) = i + 1 + j := by omega
      have := ih (i + 1) j
      by_cases hv : v = 0#8
      · simp [cellsOf, hv, e, this]
      · have hne : ¬ i = i + 1 + j := by omega
        simp [cellsOf, cellsRead, hv, e, hne, this]

/-! ### Memory -/

@[simp] theorem Memory.len_grow (m : Memory) (x : Nat) : (m.grow x).len = max m.len (x + 1) := rfl
@[simp] theorem Memory.read_grow (m : Memory) (x i : Nat) : (m.grow x).read i = m.read i := rfl
@[simp] theorem Memory.len_write (m : Memory) (x : Nat) (v : Byte) : (m.write x v).len = m.len := rfl
@[simp] theorem Memory.len_setCol (m : Memory) (x : Nat) (v : Byte) :
    (m.setCol x v).len = max m.len (x + 1) := rfl
@[simp] theorem Memory.len_ofColumns (cols : List Byte) : (Memory.ofColumns cols).len = cols.length :=
  rfl
@[simp] theorem Memory.len_blank : Memory.blank.len = 11 := rfl
@[simp] theorem Memory.read_blank (i : Nat) : Memory.blank.read i = 0 := rfl

/-- Past the length nothing is listed. -/
theorem Memory.read_of_ge {m : Memory} (h : m.wf) {i : Nat} (hi : m.len ≤ i) : m.read i = 0 :=
  cellsRead_of_gt fun c hc => Nat.lt_of_lt_of_le (h.2 c hc).2 hi

theorem Memory.read_write {m : Memory} (h : m.wf) (x : Nat) (v : Byte) (i : Nat) :
    (m.write x v).read i = if i = x then v else m.read i :=
  cellsRead_cellsWrite h.1 x v i

theorem Memory.read_setCol {m : Memory} (h : m.wf) (x : Nat) (v : Byte) (i : Nat) :
    (m.setCol x v).read i = if i = x then v else m.read i :=
  cellsRead_cellsWrite h.1 x v i

theorem Memory.read_ofColumns (cols : List Byte) (i : Nat) :
    (Memory.ofColumns cols).read i = cols.getD i 0 := by
  simpa [Memory.read, Memory.ofColumns] using cellsRead_cellsOf 0 cols i

theorem Memory.wf_blank : Memory.blank.wf := by
  simp [Memory.wf, Memory.blank]

theorem Memory.wf_grow {m : Memory} (h : m.wf) (x : Nat) : (m.grow x).wf :=
  ⟨h.1, fun c hc => ⟨(h.2 c hc).1, Nat.lt_of_lt_of_le (h.2 c hc).2 (Nat.le_max_left ..)⟩⟩

theorem Memory.wf_write {m : Memory} (h : m.wf) {x : Nat} (hx : x < m.len) (v : Byte) :
    (m.write x v).wf := by
  refine ⟨pairwise_cellsWrite h.1 x v, fun c hc => ?_⟩
  rcases mem_cellsWrite hc with ⟨rfl, hv⟩ | hc
  · exact ⟨hv, hx⟩
  · exact h.2 c hc

theorem Memory.wf_setCol {m : Memory} (h : m.wf) (x : Nat) (v : Byte) : (m.setCol x v).wf :=
  Memory.wf_write (Memory.wf_grow h x) (by simp [Memory.grow]) v

theorem Memory.wf_ofColumns (cols : List Byte) : (Memory.ofColumns cols).wf :=
  ⟨pairwise_cellsOf 0 cols, fun c hc =>
    ⟨(mem_cellsOf hc).1, by simpa using (mem_cellsOf hc).2.2⟩⟩

theorem Memory.wf_setCols {m : Memory} (h : m.wf) (x : Nat) (cols : List Byte) :
    (m.setCols x cols).wf := by
  induction cols generalizing m x with
  | nil => exact h
  | cons v cols ih => exact ih (Memory.wf_setCol h x v) (x + 1)

/-- Consecutive columns from `x` on lengthen the buffer to hold the last of them. -/
theorem Memory.len_setCols (m : Memory) (x : Nat) (cols : List Byte) :
    (m.setCols x cols).len = if cols = [] then m.len else max m.len (x + cols.length) := by
  induction cols generalizing m x with
  | nil => simp [Memory.setCols]
  | cons v cols ih =>
    rw [Memory.setCols, ih]
    by_cases hc : cols = []
    · simp [hc]
    · simp only [hc, if_false, Memory.len_setCol, List.length_cons, reduceCtorEq]
      omega

/-- Consecutive columns from `x` on: theirs at their indices, everything else as before. -/
theorem Memory.read_setCols {m : Memory} (h : m.wf) (x : Nat) (cols : List Byte) (i : Nat) :
    (m.setCols x cols).read i =
      if x ≤ i ∧ i < x + cols.length then cols.getD (i - x) 0 else m.read i := by
  induction cols generalizing m x with
  | nil =>
    have : ¬ (x ≤ i ∧ i < x) := by omega
    simp [Memory.setCols, this]
  | cons v cols ih =>
    rw [Memory.setCols, ih (Memory.wf_setCol h x v), Memory.read_setCol h]
    by_cases h1 : i = x
    · subst h1; simp
    · by_cases h2 : x + 1 ≤ i ∧ i < x + 1 + cols.length
      · have e : i - x = (i - (x + 1)) + 1 := by omega
        have h3 : x ≤ i ∧ i < x + (v :: cols).length := by simp only [List.length_cons]; omega
        rw [if_pos h2, if_pos h3, e, List.getD_cons_succ]
      · have h3 : ¬ (x ≤ i ∧ i < x + (v :: cols).length) := by simp only [List.length_cons]; omega
        rw [if_neg h2, if_neg h1, if_neg h3]

@[simp] theorem Memory.length_slice (m : Memory) (i n : Nat) : (m.slice i n).length = n := by
  simp [Memory.slice]

theorem Memory.getElem_slice (m : Memory) (i n j : Nat) (h : j < (m.slice i n).length) :
    (m.slice i n)[j] = m.read (i + j) := by
  simp [Memory.slice]

end Sys2Proof.Machine
end

