-- ==== Sys2Proof/Laws/Bus.lean ====
section
/-! SUPPORT. One bus write, one push, and the refusals before them: everything each can do, once
(spec/44_driver.md R180, R181, 60_exceptions.md R204, R206). -/

namespace Sys2Proof.Machine

/-! ### The state after one write -/

theorem State.afterWrite_eq (s : State) (reg : BusReg) (bytes : List Byte) :
    s.afterWrite reg bytes =
      { s with
        trace := s.trace ++ writeEvents s s.err reg bytes
        err := errAfter s s.err
        answers := s.answers.tail
        freeCount := s.freeCount + (if s.answers.isEmpty then 1 else 0) } := by
  cases h : s.nextAnswer
  · simp [State.afterWrite, h, writeEvents, errAfter, State.emit, State.dropAnswer]
  · by_cases he : s.err = 9
    · simp [State.afterWrite, h, writeEvents, errAfter, State.emit, State.dropAnswer,
        State.countFailure, State.setErr, he]
    · simp [State.afterWrite, h, writeEvents, errAfter, State.emit, State.dropAnswer,
        State.countFailure, State.setErr, he, noticeAt]

section
variable (s : State) (reg : BusReg) (bytes : List Byte)

@[simp] theorem State.afterWrite_buf : (s.afterWrite reg bytes).buf = s.buf := by
  rw [State.afterWrite_eq]
@[simp] theorem State.afterWrite_off : (s.afterWrite reg bytes).off = s.off := by
  rw [State.afterWrite_eq]
@[simp] theorem State.afterWrite_rot : (s.afterWrite reg bytes).rot = s.rot := by
  rw [State.afterWrite_eq]
@[simp] theorem State.afterWrite_err : (s.afterWrite reg bytes).err = errAfter s s.err := by
  rw [State.afterWrite_eq]
@[simp] theorem State.afterWrite_font : (s.afterWrite reg bytes).font = s.font := by
  rw [State.afterWrite_eq]
@[simp] theorem State.afterWrite_busOpen : (s.afterWrite reg bytes).busOpen = s.busOpen := by
  rw [State.afterWrite_eq]
@[simp] theorem State.afterWrite_trace :
    (s.afterWrite reg bytes).trace = s.trace ++ writeEvents s s.err reg bytes := by
  rw [State.afterWrite_eq]
@[simp] theorem State.afterWrite_cfg : (s.afterWrite reg bytes).cfg = s.cfg := by
  rw [State.afterWrite_eq]
@[simp] theorem State.afterWrite_port : (s.afterWrite reg bytes).port = s.port := by
  rw [State.afterWrite_eq]
@[simp] theorem State.afterWrite_answers : (s.afterWrite reg bytes).answers = s.answers.tail := by
  rw [State.afterWrite_eq]
@[simp] theorem State.afterWrite_freeCount :
    (s.afterWrite reg bytes).freeCount =
      s.freeCount + (if s.answers.isEmpty then 1 else 0) := by
  rw [State.afterWrite_eq]

@[simp] theorem State.afterWrite_frame : (s.afterWrite reg bytes).frame = s.frame := by
  simp [State.frame]

end

/-! ### The answer depends on the environment's fields only -/

@[simp] theorem State.nextAnswer_setBuf (s : State) (m : Memory) :
    (s.setBuf m).nextAnswer = s.nextAnswer := rfl
@[simp] theorem State.nextAnswer_setOff (s : State) (o : Nat) :
    (s.setOff o).nextAnswer = s.nextAnswer := rfl
@[simp] theorem State.nextAnswer_opened (s : State) : s.opened.nextAnswer = s.nextAnswer := rfl
@[simp] theorem State.nextAnswer_accept (s : State) : s.accept.nextAnswer = s.nextAnswer := rfl

@[simp] theorem writeEvents_setBuf (s : State) (m : Memory) (old : Nat) (reg : BusReg)
    (bytes : List Byte) : writeEvents (s.setBuf m) old reg bytes = writeEvents s old reg bytes := rfl
@[simp] theorem writeEvents_setOff (s : State) (o : Nat) (old : Nat) (reg : BusReg)
    (bytes : List Byte) : writeEvents (s.setOff o) old reg bytes = writeEvents s old reg bytes := rfl
@[simp] theorem writeEvents_opened (s : State) (old : Nat) (reg : BusReg) (bytes : List Byte) :
    writeEvents s.opened old reg bytes = writeEvents s old reg bytes := rfl
@[simp] theorem errAfter_setBuf (s : State) (m : Memory) (old : Nat) :
    errAfter (s.setBuf m) old = errAfter s old := rfl
@[simp] theorem errAfter_setOff (s : State) (o : Nat) (old : Nat) :
    errAfter (s.setOff o) old = errAfter s old := rfl
@[simp] theorem errAfter_opened (s : State) (old : Nat) : errAfter s.opened old = errAfter s old := rfl

/-! ### Guards, bus write and push -/

theorem whenOpen_of_open {s : State} (h : s.busOpen = true) (o : Outcome) : whenOpen s o = o := by
  simp [whenOpen, h]

theorem whenOpen_of_closed {s : State} (h : s.busOpen = false) (o : Outcome) :
    whenOpen s o = .refused .busNotOpen := by
  simp [whenOpen, h]

theorem whenOpen_eq_next {s t : State} {o : Outcome} :
    whenOpen s o = .next t ↔ s.busOpen = true ∧ o = .next t := by
  cases h : s.busOpen <;> simp [whenOpen, h]

theorem whenFits_of_fits {s : State} {n : Nat} (h : fitsCap s.cfg n = true) (o : Outcome) :
    whenFits s n o = o := by
  simp [whenFits, h]

theorem whenFits_of_not {s : State} {n : Nat} (h : fitsCap s.cfg n = false) (o : Outcome) :
    whenFits s n o = .refused .capacity := by
  simp [whenFits, h]

theorem whenFits_eq_next {s t : State} {n : Nat} {o : Outcome} :
    whenFits s n o = .next t ↔ fitsCap s.cfg n = true ∧ o = .next t := by
  cases h : fitsCap s.cfg n <;> simp [whenFits, h]

theorem busWrite_eq_next {s t : State} {reg : BusReg} {bytes : List Byte} :
    busWrite reg bytes s = .next t ↔ s.busOpen = true ∧ t = s.afterWrite reg bytes := by
  rw [busWrite, whenOpen_eq_next]
  simp [eq_comm (a := t)]

theorem push_eq_next {s t : State} :
    push s = .next t ↔ s.busOpen = true ∧ s.windowDefined ∧ t = s.afterWrite .draw s.frame := by
  unfold push
  rw [whenOpen_eq_next]
  by_cases h : s.windowDefined
  · rw [if_pos h]
    exact ⟨fun ⟨ho, e⟩ => ⟨ho, h, by simpa using e.symm⟩, fun ⟨ho, _, e⟩ => ⟨ho, by rw [e]⟩⟩
  · rw [if_neg h]
    exact ⟨fun ⟨_, e⟩ => by simp at e, fun ⟨_, hw, _⟩ => absurd hw h⟩

/-- A push is the bus write of R181 wherever the window is defined. -/
theorem push_eq_busWrite {s : State} (h : s.windowDefined) : push s = busWrite .draw s.frame s := by
  unfold push busWrite
  rw [if_pos h]

/-- A push neither reads nor writes anything but `ERR`, the trace and the environment's answers. -/
theorem push_pushedOnce {s t : State} (h : push s = .next t) :
    t.buf = s.buf ∧ t.off = s.off ∧ t.rot = s.rot ∧ t.font = s.font ∧ s.PushedOnce t := by
  obtain ⟨-, -, rfl⟩ := push_eq_next.1 h
  simp [State.PushedOnce, State.Answered]

/-! ### Capacity -/

theorem fitsCap_mono {c : Config} {a b : Nat} (h : a ≤ b) (hb : fitsCap c b = true) :
    fitsCap c a = true := by
  unfold fitsCap at *
  cases hc : c.bufCap with
  | none => rfl
  | some n => simp only [hc, decide_eq_true_eq] at *; omega

theorem fitsCap_max {c : Config} {a b : Nat} (ha : fitsCap c a = true) (hb : fitsCap c b = true) :
    fitsCap c (max a b) = true := by
  rcases Nat.le_total a b with h | h
  · rwa [Nat.max_eq_right h]
  · rwa [Nat.max_eq_left h]

theorem fitsCap_minLen {c : Config} (h : c.wf) : fitsCap c minLen = true := by
  unfold fitsCap
  cases hc : c.bufCap with
  | none => rfl
  | some n => simpa using h.2.1 n (by simp [hc])

end Sys2Proof.Machine
end

