-- ==== Sys2Proof/Laws/Encoding.lean ====
section
/-! SUPPORT. The field types of the packet: what is written is read back (spec/30_encoding.md R82), and
the opcode map (R84). -/

namespace Sys2Proof

theorem u32_lt (b0 b1 b2 b3 : Byte) : u32 b0 b1 b2 b3 < 2 ^ 32 := by
  have h0 := b0.isLt; have h1 := b1.isLt; have h2 := b2.isLt; have h3 := b3.isLt
  unfold u32; omega

/-- The four bytes of a value in range read back as the value. -/
theorem u32_bytes {v : Nat} (h : v < 2 ^ 32) :
    u32 (BitVec.ofNat 8 v) (BitVec.ofNat 8 (v / 2 ^ 8)) (BitVec.ofNat 8 (v / 2 ^ 16))
      (BitVec.ofNat 8 (v / 2 ^ 24)) = v := by
  simp only [u32, BitVec.toNat_ofNat]
  omega

/-- A `u32` field's value has the field's bytes. -/
theorem u32Bytes_u32 (b0 b1 b2 b3 : Byte) : u32Bytes (u32 b0 b1 b2 b3) = [b0, b1, b2, b3] := by
  have h0 := b0.isLt; have h1 := b1.isLt; have h2 := b2.isLt; have h3 := b3.isLt
  unfold u32Bytes u32
  congr 1
  · apply BitVec.eq_of_toNat_eq; simp only [BitVec.toNat_ofNat]; omega
  congr 1
  · apply BitVec.eq_of_toNat_eq; simp only [BitVec.toNat_ofNat]; omega
  congr 1
  · apply BitVec.eq_of_toNat_eq; simp only [BitVec.toNat_ofNat]; omega
  congr 1
  · apply BitVec.eq_of_toNat_eq; simp only [BitVec.toNat_ofNat]; omega

theorem sext32_emod {v : Int} (h : fitsS32 v = true) : sext32 (v % 2 ^ 32).toNat = v := by
  simp only [fitsS32, decide_eq_true_eq] at h
  unfold sext32
  split <;> omega

theorem toNat_emod_lt (v : Int) : (v % 2 ^ 32).toNat < 2 ^ 32 := by omega

theorem fitsS32_sext32 {v : Nat} (h : v < 2 ^ 32) : fitsS32 (sext32 v) = true := by
  unfold sext32
  split <;> exact decide_eq_true (by omega)

theorem sext32_toNat {v : Nat} (h : v < 2 ^ 32) : (sext32 v % 2 ^ 32).toNat = v := by
  unfold sext32
  split <;> omega

@[simp] theorem length_u32Bytes (v : Nat) : (u32Bytes v).length = 4 := rfl
@[simp] theorem length_s32Bytes (v : Int) : (s32Bytes v).length = 4 := rfl

/-- An `s32` field written and read. -/
theorem s32_bytes {v : Int} (h : fitsS32 v = true) :
    s32 (BitVec.ofNat 8 (v % 2 ^ 32).toNat) (BitVec.ofNat 8 ((v % 2 ^ 32).toNat / 2 ^ 8))
      (BitVec.ofNat 8 ((v % 2 ^ 32).toNat / 2 ^ 16)) (BitVec.ofNat 8 ((v % 2 ^ 32).toNat / 2 ^ 24))
      = v := by
  rw [s32, u32_bytes (toNat_emod_lt v), sext32_emod h]

/-- A `u32` field at the head of a group. -/
theorem u32s_u32Bytes_append {v : Nat} (h : v < 2 ^ 32) (rest : List Byte) :
    u32s (u32Bytes v ++ rest) = v :: u32s rest := by
  simp only [u32Bytes, List.cons_append, List.nil_append, u32s, u32_bytes h]

/-- The opcode map has no two rows alike (R84). -/
theorem ofByte_code (o : Op) : Op.ofByte o.code = some o := by cases o <;> rfl

theorem code_of_ofByte {b : Byte} {o : Op} (h : Op.ofByte b = some o) : o.code = b := by
  have := List.find?_some h
  simpa using this

theorem decode_encode_eq (i : Instr) : decode (encode i) = decodeBody i.op (encodeBody i) := by
  simp only [encode, decode, ofByte_code]

end Sys2Proof
end

