-- ==== Sys2Proof/Laws/Text.lean ====
section
/-! SUPPORT. The font as a map (spec/10_state.md R25) and the rendering of a text into the column memory
(42_font.md R151, R152). -/

namespace Sys2Proof.Machine

/-! ### Font -/

theorem fontLookup_fontInsert (c : Nat) (g : Glyph) (f : Font) (ch : Nat) :
    fontLookup (fontInsert c g f) ch = if c = ch then some g else fontLookup f ch := by
  induction f with
  | nil => simp [fontInsert, fontLookup]
  | cons e f ih =>
    obtain ⟨k, h⟩ := e
    by_cases h1 : c < k
    · simp [fontInsert, h1, fontLookup]
    · by_cases h2 : c = k
      · subst h2
        by_cases h3 : c = ch <;> simp [fontInsert, fontLookup, h3]
      · by_cases h3 : k = ch
        · subst h3
          simp [fontInsert, h1, h2, fontLookup]
        · simp [fontInsert, h1, h2, fontLookup, h3, ih]

/-- The canonical list denotes the same map. -/
theorem fontLookup_fontOfEntries (f : Font) (ch : Nat) :
    fontLookup (fontOfEntries f) ch = fontLookup f ch := by
  induction f with
  | nil => rfl
  | cons e f ih => simp [fontOfEntries, fontLookup_fontInsert, fontLookup, ih]

theorem mem_fontInsert {c : Nat} {g : Glyph} {f : Font} {e : Nat × Glyph}
    (h : e ∈ fontInsert c g f) : e = (c, g) ∨ e ∈ f := by
  induction f with
  | nil => exact .inl (by simpa [fontInsert] using h)
  | cons d f ih =>
    obtain ⟨k, w⟩ := d
    simp only [fontInsert] at h
    split at h
    · simpa using h
    · split at h
      · rcases List.mem_cons.1 h with h | h
        · exact .inl h
        · simp [h]
      · rcases List.mem_cons.1 h with h | h
        · simp [h]
        · exact (ih h).imp_right fun h => by simp [h]

theorem fontOrdered_fontInsert {f : Font} (h : fontOrdered f) (c : Nat) (g : Glyph) :
    fontOrdered (fontInsert c g f) := by
  induction f with
  | nil => simp [fontInsert, fontOrdered]
  | cons d f ih =>
    obtain ⟨k, w⟩ := d
    obtain ⟨hk, hp⟩ := List.pairwise_cons.1 h
    simp only [fontInsert]
    split
    · refine List.pairwise_cons.2 ⟨fun e he => ?_, h⟩
      rcases List.mem_cons.1 he with rfl | he
      · assumption
      · exact Nat.lt_trans ‹c < k› (hk e he)
    · split
      · subst c; exact List.pairwise_cons.2 ⟨hk, hp⟩
      · refine List.pairwise_cons.2 ⟨fun e he => ?_, ih hp⟩
        rcases mem_fontInsert he with rfl | he
        · show k < c; omega
        · exact hk e he

/-- The canonical list is in canonical form. -/
theorem fontOrdered_fontOfEntries (f : Font) : fontOrdered (fontOfEntries f) := by
  induction f with
  | nil => exact List.Pairwise.nil
  | cons e f ih => exact fontOrdered_fontInsert ih e.1 e.2

/-- A list already in canonical form is its own canonical list. -/
theorem fontOfEntries_of_ordered {f : Font} (h : fontOrdered f) : fontOfEntries f = f := by
  induction f with
  | nil => rfl
  | cons e f ih =>
    obtain ⟨c, g⟩ := e
    obtain ⟨hc, hp⟩ := List.pairwise_cons.1 h
    rw [fontOfEntries, ih hp]
    cases f with
    | nil => rfl
    | cons d f =>
      have : c < d.1 := hc d (by simp)
      simp [fontInsert, this]

/-! ### Text -/

theorem length_flatMap_charColumns (space : Nat) (f : Font) (text : List Nat) :
    (text.flatMap (charColumns space f)).length = textWidth space f text := by
  induction text with
  | nil => rfl
  | cons ch text ih => simp [textWidth, ih]

theorem charColumns_ne_nil (space : Nat) (f : Font) (ch : Nat) : charColumns space f ch ≠ [] := by
  unfold charColumns
  split <;> simp

theorem Memory.setCols_append (m : Memory) (x : Nat) (a b : List Byte) :
    m.setCols x (a ++ b) = (m.setCols x a).setCols (x + a.length) b := by
  induction a generalizing m x with
  | nil => rfl
  | cons v a ih =>
    have e : x + 1 + a.length = x + (a.length + 1) := by omega
    simp [Memory.setCols, ih, e]

/-- Rendering a text writes the columns of its characters, one after another, from the cursor on. -/
theorem renderText_eq (space : Nat) (f : Font) (text : List Nat) (x : Nat) (m : Memory) :
    renderText space f text x m = m.setCols x (text.flatMap (charColumns space f)) := by
  induction text generalizing x m with
  | nil => rfl
  | cons ch text ih => rw [renderText, ih, List.flatMap_cons, Memory.setCols_append]

theorem flatMap_charColumns_eq_nil {space : Nat} {f : Font} {text : List Nat} :
    text.flatMap (charColumns space f) = [] ↔ text = [] := by
  cases text with
  | nil => simp
  | cons ch text => simp [charColumns_ne_nil]

theorem length_graphColumns (values : List Rat) (low high : Option Rat) :
    (graphColumns values low high).length = values.length := by
  cases values <;> simp [graphColumns]

end Sys2Proof.Machine
end

