-- ==== Sys2Proof/Laws/Window.lean ====
section
/-! SUPPORT. The window, its rotation and the frame: lengths and reads (spec/41_window.md R130 to R133),
and the floored modulo (00_scope.md R8). -/

namespace Sys2Proof.Machine

theorem length_windowOf {m : Memory} {off : Nat} (ho : off < m.len) :
    (windowOf m off).length = 11 := by
  unfold windowOf
  by_cases h : off + ncols ≤ m.len
  · simp [h]
  · simp only [h, if_false, List.length_append, Memory.length_slice]
    simp only [ncols] at *
    omega

@[simp] theorem length_rotateWindow (w : List Byte) : (rotateWindow w).length = w.length := by
  simp [rotateWindow]

/-- Every frame of a state with a defined window has 12 bytes, the last the terminator (R133). -/
theorem length_frame {s : State} (h : s.windowDefined) : s.frame.length = 12 := by
  have := length_windowOf h.2
  unfold State.frame
  cases s.rot <;> simp [this]

theorem frame_last {s : State} (h : s.windowDefined) : s.frame[11]? = some 0xFF := by
  have hw := length_windowOf h.2
  unfold State.frame
  cases s.rot
  · simp [hw]
  · have : (rotateWindow (windowOf s.buf s.off)).length = 11 := by simp [hw]
    simp [this]

/-- `floorMod` is below a positive divisor. -/
theorem floorMod_lt (a : Int) {l : Nat} (h : 0 < l) : floorMod a l < l := by
  unfold floorMod
  have h0 := Int.emod_nonneg a (b := (l : Int)) (by omega)
  have h1 := Int.emod_lt_of_pos a (b := (l : Int)) (by omega)
  omega

theorem floorMod_cast (a : Int) {l : Nat} (h : 0 < l) : (floorMod a l : Int) = a % l :=
  Int.toNat_of_nonneg (Int.emod_nonneg a (by omega))

end Sys2Proof.Machine
end

