-- ==== Sys2Proof/Laws/Exec.lean ====
section
/-! SUPPORT. For each command, when it answers a next state and which one: the one inversion lemma of its
meaning, which the proofs cite instead of unfolding it. And the same for a step. -/

namespace Sys2Proof.Machine

variable {s t : State}

theorem exec_init_eq_next :
    exec .init s = .next t ↔ t = s.opened.afterWrite .modeSet [s.cfg.mode5x11] := by
  show busWrite .modeSet [s.cfg.mode5x11] s.opened = .next t ↔ _
  rw [busWrite_eq_next]
  simp

theorem exec_setmode_eq_next {m : Byte} :
    exec (.setmode m) s = .next t ↔
      s.busOpen = true ∧ t = s.afterWrite .modeSet [s.cfg.mode5x11] :=
  busWrite_eq_next

theorem exec_setbrt_eq_next {b : Byte} :
    exec (.setbrt b) s = .next t ↔ s.busOpen = true ∧ t = s.afterWrite .brightnessSet [b] :=
  busWrite_eq_next

theorem exec_update_eq_next :
    exec .update s = .next t ↔ s.busOpen = true ∧ s.windowDefined ∧ t = s.afterWrite .draw s.frame :=
  push_eq_next

/-- The state of SCROLL and SCROLLTO before their push. -/
theorem exec_scroll_eq_next {d : Int} :
    exec (.scroll d) s = .next t ↔
      s.busOpen = true ∧ (s.setOff (floorMod (s.off + d) s.buf.len)).windowDefined
        ∧ t = (s.setOff (floorMod (s.off + d) s.buf.len)).afterWrite .draw
            (s.setOff (floorMod (s.off + d) s.buf.len)).frame :=
  push_eq_next

theorem exec_scrollto_eq_next {p : Int} :
    exec (.scrollto p) s = .next t ↔
      s.busOpen = true ∧ (s.setOff (floorMod p s.buf.len)).windowDefined
        ∧ t = (s.setOff (floorMod p s.buf.len)).afterWrite .draw
            (s.setOff (floorMod p s.buf.len)).frame :=
  push_eq_next

/-- The column memory after a text (R151), as one run of columns. -/
abbrev textBuf (s : State) (text : List Nat) (x : Nat) : Memory :=
  s.buf.setCols x (text.flatMap (charColumns s.cfg.spaceCode s.font))

theorem exec_wrstr_eq_next {text : List Nat} {x : Nat} :
    exec (.wrstr text x) s = .next t ↔
      s.busOpen = true ∧ fitsCap s.cfg (textNeeds s text x) = true
        ∧ (s.setBuf (textBuf s text x)).windowDefined
        ∧ t = (s.setBuf (textBuf s text x)).afterWrite .draw (s.setBuf (textBuf s text x)).frame := by
  show whenOpen s _ = .next t ↔ _
  rw [whenOpen_eq_next, whenFits_eq_next, push_eq_next, renderText_eq]
  exact ⟨fun ⟨a, b, _, c, d⟩ => ⟨a, b, c, d⟩, fun ⟨a, b, c, d⟩ => ⟨a, b, a, c, d⟩⟩

theorem exec_graph_eq_next {values : List Rat} {low high : Option Rat} :
    exec (.graph values low high) s = .next t ↔
      s.busOpen = true ∧ fitsCap s.cfg values.length = true
        ∧ (s.setBuf (s.buf.setCols 0 (graphColumns values low high))).windowDefined
        ∧ t = (s.setBuf (s.buf.setCols 0 (graphColumns values low high))).afterWrite .draw
            (s.setBuf (s.buf.setCols 0 (graphColumns values low high))).frame := by
  show whenOpen s _ = .next t ↔ _
  rw [whenOpen_eq_next, whenFits_eq_next, push_eq_next]
  exact ⟨fun ⟨a, b, _, c, d⟩ => ⟨a, b, c, d⟩, fun ⟨a, b, c, d⟩ => ⟨a, b, a, c, d⟩⟩

theorem exec_setcol_eq_next {x : Nat} {v : Byte} :
    exec (.setcol x v) s = .next t ↔
      fitsCap s.cfg (x + 1) = true ∧ t = s.setBuf (s.buf.setCol x v) := by
  show whenFits s _ _ = .next t ↔ _
  rw [whenFits_eq_next]
  simp [eq_comm (a := t)]

theorem exec_setpix_eq_next {x : Nat} {y : Fin 8} {v : Bool} :
    exec (.setpix x y v) s = .next t ↔
      fitsCap s.cfg (x + 1) = true
        ∧ t = s.setBuf (s.buf.setCol x (pixelColumn (s.buf.read x) y v)) := by
  show whenFits s _ _ = .next t ↔ _
  rw [whenFits_eq_next]
  simp [Memory.setCol, eq_comm (a := t)]

theorem exec_setbuf_eq_next {cols : List Byte} :
    exec (.setbuf cols) s = .next t ↔
      11 ≤ cols.length ∧ fitsCap s.cfg cols.length = true
        ∧ t = (s.setBuf (Memory.ofColumns cols)).setOff (floorMod s.off cols.length) := by
  show (if cols.length < 11 then _ else _) = _ ↔ _
  by_cases h : cols.length < 11
  · simp [h]
  · rw [if_neg h, whenFits_eq_next]
    simp [Nat.le_of_not_lt h, eq_comm (a := t)]

theorem exec_buflen_eq_next : exec .buflen s = .next t ↔ t = s.respond s.buf.len := by
  simp [exec, execBuflen, eq_comm (a := t)]

theorem exec_clear_eq_next :
    exec .clear s = .next t ↔ t = (s.setBuf Memory.blank).setOff 0 := by
  simp [exec, execClear, eq_comm (a := t)]

theorem exec_loadfont_eq_next {f : Font} :
    exec (.loadfont f) s = .next t ↔ t = s.setFont (fontOfEntries f) := by
  simp [exec, execLoadfont, eq_comm (a := t)]

theorem exec_ioerr_eq_next : exec .ioerr s = .next t ↔ t = s.respond s.err := by
  simp [exec, execIoerr, eq_comm (a := t)]

theorem exec_setrot_eq_next {r : Bool} : exec (.setrot r) s = .next t ↔ t = s.setRot r := by
  simp [exec, execSetrot, eq_comm (a := t)]

/-- What a step can do: nothing, with an empty port; else the command at its head. -/
theorem step_eq_next :
    step s = .next t ↔
      (s.port = [] ∧ t = s)
        ∨ ∃ c rest i, s.port = c :: rest ∧ readSubmission c = .ok i ∧ exec i s.accept = .next t := by
  unfold step
  cases hp : s.port with
  | nil => simp [eq_comm (a := t)]
  | cons c rest =>
    cases hr : readSubmission c with
    | error e => simp [hr]
    | ok i => simp [hr]

end Sys2Proof.Machine
end

