-- ==== Sys2Proof/Laws/Operands.lean ====
section
/-! SUPPORT. What the operand functions give: a pixel's column bit by bit (spec/40_framebuffer.md R112). -/

namespace Sys2Proof.Machine

theorem getLsbD_bitMask (y : Fin 8) (k : Nat) :
    (BitVec.ofNat 8 (2 ^ y.val)).getLsbD k = decide (k = y.val) := by
  have := y.isLt
  rw [BitVec.getLsbD_ofNat, Nat.testBit_two_pow]
  by_cases h : k = y.val
  · subst h; simp
  · have : ¬ y.val = k := fun e => h e.symm
    simp [h, this]

/-- Bit `y` gets the value, every other bit is kept. -/
theorem getLsbD_pixelColumn (c : Byte) (y : Fin 8) (v : Bool) (k : Nat) :
    (pixelColumn c y v).getLsbD k = if k = y.val then v else c.getLsbD k := by
  have hy := y.isLt
  cases v
  · show (c &&& ~~~BitVec.ofNat 8 (2 ^ y.val)).getLsbD k = _
    rw [BitVec.getLsbD_and, BitVec.getLsbD_not, getLsbD_bitMask]
    by_cases h : k = y.val
    · simp [h]
    · by_cases hk : k < 8
      · simp [h, hk]
      · simp [h, BitVec.getLsbD_of_ge c k (Nat.le_of_not_lt hk)]
  · show (c ||| BitVec.ofNat 8 (2 ^ y.val)).getLsbD k = _
    rw [BitVec.getLsbD_or, getLsbD_bitMask]
    by_cases h : k = y.val <;> simp [h]

end Sys2Proof.Machine
end

