-- ==== Sys2Proof/Laws/PerInstr.lean ====
section
/-! SUPPORT. Facts about the commands as packets, one lemma per constructor: the family `OpcodeFirst`,
the first byte of a command's packet is the opcode of its row (spec/30_encoding.md R82, R84). -/

namespace Sys2Proof.Laws.OpcodeFirst

/-- The packet of the command begins with its opcode, and that byte is nobody else's. -/
def Statement (i : Instr) : Prop :=
  (encode i).head? = some i.op.code ∧ Op.ofByte i.op.code = some i.op

theorem init : Statement .init := ⟨rfl, rfl⟩
theorem setmode (m : Byte) : Statement (.setmode m) := ⟨rfl, rfl⟩
theorem setbrt (b : Byte) : Statement (.setbrt b) := ⟨rfl, rfl⟩
theorem wrstr (text : List Nat) (startX : Nat) : Statement (.wrstr text startX) := ⟨rfl, rfl⟩
theorem graph (values : List Rat) (low high : Option Rat) : Statement (.graph values low high) :=
  ⟨rfl, rfl⟩
theorem setcol (x : Nat) (v : Byte) : Statement (.setcol x v) := ⟨rfl, rfl⟩
theorem setpix (x : Nat) (y : Fin 8) (v : Bool) : Statement (.setpix x y v) := ⟨rfl, rfl⟩
theorem setbuf (cols : List Byte) : Statement (.setbuf cols) := ⟨rfl, rfl⟩
theorem buflen : Statement .buflen := ⟨rfl, rfl⟩
theorem scroll (d : Int) : Statement (.scroll d) := ⟨rfl, rfl⟩
theorem scrollto (p : Int) : Statement (.scrollto p) := ⟨rfl, rfl⟩
theorem clear : Statement .clear := ⟨rfl, rfl⟩
theorem loadfont (f : Font) : Statement (.loadfont f) := ⟨rfl, rfl⟩
theorem ioerr : Statement .ioerr := ⟨rfl, rfl⟩
theorem update : Statement .update := ⟨rfl, rfl⟩
theorem setrot (r : Bool) : Statement (.setrot r) := ⟨rfl, rfl⟩

end Sys2Proof.Laws.OpcodeFirst
end

