-- ==== Sys2Proof/Tests/Slice0.lean ====
section
/-! SUPPORT. Tests and witnesses. Every expected value is from the spec: the vectors of
95_test_vectors.md (named in the comments), the encodings of 30_encoding.md written out by hand, or the
tables of 41_window.md and 43_graph.md. The `witness_` theorems show states and operands that meet the
hypotheses of the obligation they are named after, all of them together. -/

namespace Sys2Proof.Tests

open Sys2Proof.Machine

/-! ### A small state -/

/-- Parameters made up for the tests. -/
def cfg : Config where
  devAddr := 0x21
  regMode := 40
  regBright := 41
  regDraw := 42
  mode5x11 := 0x77
  busChannel := 9
  font0 := []
  spaceCode := 32
  bufCap := none
  errMax := none

/-- The font `F1` of the vectors. -/
def f1 : Font := [(72, [0x1F, 0x04, 0x1F]), (105, [0x17])]

/-- `Z11` as columns. -/
def z11 : List Byte := [0, 0, 0, 0, 0, 0, 0, 0, 0, 0, 0]

/-- `B13` of the vectors. -/
def b13 : List Byte := [1, 2, 3, 4, 5, 6, 7, 8, 9, 10, 11, 12, 13]

/-- The state of the vectors: `BUF / OFF`, `ROT = 0`, `ERR = 0`, `BUSOPEN = 1`, font `F1`, every bus
write answered `ok`. -/
def st (cols : List Byte) (off : Nat) : State where
  buf := Memory.ofColumns cols
  off := off
  rot := false
  err := 0
  font := f1
  busOpen := true
  trace := []
  cfg := cfg
  port := []
  answers := [.ok, .ok, .ok]
  freeCount := 0

/-- The same with `ERR` given and the next write answered `fail`. -/
def failing (s : State) (err : Nat) : State := { s with err := err, answers := [.fail] }

/-- The same with `BUSOPEN = 0`. -/
def closed (s : State) : State := { s with busOpen := false }

/-- The same with a finite capacity. -/
def capped (s : State) (n : Nat) : State := { s with cfg := { cfg with bufCap := some n } }

/-- What a vector looks at: `BUF / OFF / ROT / ERR` and the trace. -/
def view (o : Outcome) : Option (List Byte × Nat × Bool × Nat × List Event) :=
  (nextOf o).map fun t => (t.buf.columns, t.off, t.rot, t.err, t.trace)

/-- A write of the vectors. -/
def w (reg : Nat) (bytes : List Byte) (r : BusResult) : Event := .write 0x21 reg bytes r

theorem next_of_nextOf {o : Outcome} {t : State} (h : nextOf o = some t) : o = .next t := by
  cases o <;> simp_all [nextOf]

/-! ### WellFormed: one ill-formed term for each check -/

theorem test_wf_wrstr_start : (Instr.wrstr [] (2 ^ 32)).wellFormed = false := by decide
theorem test_wf_wrstr_code : (Instr.wrstr [72, 2 ^ 32] 0).wellFormed = false := by decide
theorem test_wf_wrstr_count (text : List Nat) (h : 2 ^ 32 ≤ text.length) :
    (Instr.wrstr text 0).wellFormed = false := by
  simp [Instr.wellFormed, fitsU32]; omega
theorem test_wf_graph_fraction : (Instr.graph [1 / 2] none none).wellFormed = false := by
  decide +kernel
theorem test_wf_graph_range : (Instr.graph [2 ^ 31] none none).wellFormed = false := by
  decide +kernel
theorem test_wf_graph_low : (Instr.graph [0] (some (-2 ^ 31 - 1)) none).wellFormed = false := by
  decide +kernel
theorem test_wf_graph_high : (Instr.graph [0] none (some (3 / 2))).wellFormed = false := by
  decide +kernel
theorem test_wf_graph_count (values : List Rat) (h : 2 ^ 32 ≤ values.length) :
    (Instr.graph values none none).wellFormed = false := by
  simp [Instr.wellFormed, fitsU32]; omega
theorem test_wf_setcol : (Instr.setcol (2 ^ 32) 0).wellFormed = false := by decide
theorem test_wf_setpix : (Instr.setpix (2 ^ 32) 0 true).wellFormed = false := by decide
theorem test_wf_setbuf_short : (Instr.setbuf [1, 2, 3, 4, 5, 6, 7, 8, 9, 10]).wellFormed = false := by
  decide
theorem test_wf_setbuf_count (cols : List Byte) (h : 2 ^ 32 ≤ cols.length) :
    (Instr.setbuf cols).wellFormed = false := by
  simp [Instr.wellFormed, fitsU32]; omega
theorem test_wf_scroll : (Instr.scroll (2 ^ 31)).wellFormed = false := by decide
theorem test_wf_scrollto : (Instr.scrollto (-2 ^ 31 - 1)).wellFormed = false := by decide
theorem test_wf_loadfont_code : (Instr.loadfont [(2 ^ 32, [])]).wellFormed = false := by decide
theorem test_wf_loadfont_width :
    (Instr.loadfont [(0, List.replicate 256 0)]).wellFormed = false := by decide +kernel
theorem test_wf_loadfont_order :
    (Instr.loadfont [(105, [0x17]), (72, [0x1F])]).wellFormed = false := by decide
theorem test_wf_loadfont_count (f : Font) (h : 2 ^ 32 ≤ f.length) :
    (Instr.loadfont f).wellFormed = false := by
  simp [Instr.wellFormed, fitsU32]; omega

/-! ### Decoding: every command from a packet written out of R83 to R85 -/

-- E1; the F0 commands by the opcode map R84.
theorem test_decode_init : decode [0x01] = .ok .init := rfl
theorem test_decode_buflen : decode [0x09] = .ok .buflen := rfl
theorem test_decode_clear : decode [0x0C] = .ok .clear := rfl
theorem test_decode_ioerr : decode [0x0E] = .ok .ioerr := rfl
theorem test_decode_update : decode [0x0F] = .ok .update := rfl
-- E20; P3 step 2.
theorem test_decode_setmode : decode [0x02, 0x18] = .ok (.setmode 0x18) := rfl
theorem test_decode_setbrt : decode [0x03, 0x02] = .ok (.setbrt 2) := rfl
-- E2.
theorem test_decode_setcol : decode [0x06, 0x0C, 0, 0, 0, 0x1F] = .ok (.setcol 12 0x1F) := rfl
-- E3, E4; the clearing form.
theorem test_decode_setpix : decode [0x07, 3, 0, 0, 0, 4, 1] = .ok (.setpix 3 4 true)
    ∧ decode [0x07, 3, 0, 0, 0, 4, 0x80] = .ok (.setpix 3 4 true)
    ∧ decode [0x07, 3, 0, 0, 1, 7, 0] = .ok (.setpix (3 + 2 ^ 24) 7 false) := ⟨rfl, rfl, rfl⟩
-- P4 step 2.
theorem test_decode_setbuf : decode [0x08, 0x0B, 0, 0, 0, 5, 6, 7, 8, 9, 10, 11, 12, 13, 14, 15]
    = .ok (.setbuf [5, 6, 7, 8, 9, 10, 11, 12, 13, 14, 15]) := rfl
-- E5; P2 step 6.
theorem test_decode_scroll : decode [0x0A, 0xFF, 0xFF, 0xFF, 0xFF] = .ok (.scroll (-1))
    ∧ decode [0x0A, 0xF8, 0xFF, 0xFF, 0xFF] = .ok (.scroll (-8)) := ⟨rfl, rfl⟩
-- E6; the least `s32`.
theorem test_decode_scrollto : decode [0x0B, 0x28, 0, 0, 0] = .ok (.scrollto 40)
    ∧ decode [0x0B, 0, 0, 0, 0x80] = .ok (.scrollto (-2 ^ 31)) := ⟨rfl, rfl⟩
-- E7, and the clear form.
theorem test_decode_setrot : decode [0x10, 1] = .ok (.setrot true)
    ∧ decode [0x10, 0] = .ok (.setrot false) := ⟨rfl, rfl⟩
-- E14; T4's command written out.
theorem test_decode_wrstr : decode [0x04, 0, 0, 0, 0, 0, 0, 0, 0] = .ok (.wrstr [] 0)
    ∧ decode [0x04, 9, 0, 0, 0, 2, 0, 0, 0, 72, 0, 0, 0, 105, 1, 0, 0]
      = .ok (.wrstr [72, 361] 9) := ⟨rfl, rfl⟩
-- E15; P5 step 2; one bound given, the other automatic.
theorem test_decode_graph :
    decode [0x05, 3, 0, 0, 0, 0, 0, 0, 0, 0, 0, 0, 0, 0] = .ok (.graph [] none none)
    ∧ decode [0x05, 0, 0, 0, 0, 0, 10, 0, 0, 0, 2, 0, 0, 0, 0, 0, 0, 0, 10, 0, 0, 0]
      = .ok (.graph [0, 10] (some 0) (some 10))
    ∧ decode [0x05, 1, 9, 9, 9, 9, 0xFE, 0xFF, 0xFF, 0xFF, 0, 0, 0, 0]
      = .ok (.graph [] none (some (-2))) := ⟨rfl, rfl, rfl⟩
-- E17; P2 step 1.
theorem test_decode_loadfont : decode [0x0D, 0, 0, 0, 0] = .ok (.loadfont [])
    ∧ decode [0x0D, 2, 0, 0, 0, 0x48, 0, 0, 0, 3, 0x1F, 4, 0x1F, 0x69, 0, 0, 0, 1, 0x17]
      = .ok (.loadfont f1) := ⟨rfl, rfl⟩

-- E8, E9, E10, E11, E12, E13, E16, E18, E19, and the empty packet (R87 (a)).
theorem test_decode_invalid :
    decode [] = .error .empty
    ∧ decode [0x10, 2] = .error (.reservedRotate 2)
    ∧ decode [0x00] = .error (.reservedOpcode 0)
    ∧ decode [0x11] = .error (.reservedOpcode 0x11)
    ∧ decode [0x06, 0x0C, 0, 0, 0] = .error .wrongLength
    ∧ decode [0x01, 0x00] = .error .wrongLength
    ∧ decode [0x07, 3, 0, 0, 0, 8, 1] = .error (.pixelRow 8)
    ∧ decode [0x05, 4, 0, 0, 0, 0, 0, 0, 0, 0, 0, 0, 0, 0] = .error (.reservedGraphFlags 4)
    ∧ decode [0x0D, 2, 0, 0, 0, 0x69, 0, 0, 0, 1, 0x17, 0x48, 0, 0, 0, 3, 0x1F, 4, 0x1F]
      = .error .fontOrder
    ∧ decode [0x08, 10, 0, 0, 0, 1, 2, 3, 4, 5, 6, 7, 8, 9, 10] = .error .shortBuffer :=
  ⟨rfl, rfl, rfl, rfl, rfl, rfl, rfl, rfl, rfl, rfl⟩

/-- The opcode alone, operands zero, as the host lays a table word out. -/
theorem test_table_words : decodeTableWord 8 0x01 = some .init
    ∧ decodeTableWord 8 0x06 = some (.setcol 0 0) ∧ decodeTableWord 8 0x04 = some (.wrstr [] 0)
    ∧ decodeTableWord 16 0x0110 = some (.setrot true) ∧ decodeTableWord 8 0x08 = none :=
  ⟨rfl, rfl, rfl, rfl, rfl⟩

/-- From construction, a placed INIT completes and a placed UPDATE is refused (V1, V12). -/
theorem test_first_step : (nextOf (step (State.reset.withFetchWord 8 0x01))).isSome = true
    ∧ step (State.reset.withFetchWord 8 0x0F) = .refused .busNotOpen := ⟨rfl, rfl⟩

/-! ### One step of each command -/

-- V2, V1.
theorem test_init_failing :
    view (exec .init (failing { st b13 7 with rot := true } 12))
      = some (z11, 0, false, 1, [.opened 9, w 40 [0x77] .fail]) := by decide
theorem test_init_from_closed : view (exec .init (closed (st z11 0)))
      = some (z11, 0, false, 0, [.opened 9, w 40 [0x77] .ok]) := by decide
-- V3, V9.
theorem test_setmode_ignores : view (exec (.setmode 0x18) (st z11 0))
      = some (z11, 0, false, 0, [w 40 [0x77] .ok]) := by decide
theorem test_setmode_notice : view (exec (.setmode 0) (failing (st z11 0) 9))
      = some (z11, 0, false, 10, [w 40 [0x77] .fail, .notice]) := by decide
-- V5, V6.
theorem test_setbrt_passes : view (exec (.setbrt 255) (st z11 0))
      = some (z11, 0, false, 0, [w 41 [255] .ok]) := by decide
theorem test_setbrt_counts : view (exec (.setbrt 2) (failing (st z11 0) 4))
      = some (z11, 0, false, 5, [w 41 [2] .fail]) := by decide
-- T4, T7.
theorem test_wrstr_mixed : view (exec (.wrstr [72, 32, 105, 63, 72] 9) (st z11 0))
      = some ([0, 0, 0, 0, 0, 0, 0, 0, 0, 31, 4, 31, 0, 0, 0, 0, 23, 0, 0, 0, 0, 31, 4, 31, 0], 0,
          false, 0, [w 42 [0, 0, 0, 0, 0, 0, 0, 0, 0, 31, 4, 255] .ok]) := by decide
theorem test_wrstr_space_wins :
    view (exec (.wrstr [32] 0) { st [9, 9, 9, 9, 0, 0, 0, 0, 0, 0, 0] 0 with font := [(32, [0x1F])] })
      = some ([0, 0, 0, 9, 0, 0, 0, 0, 0, 0, 0], 0, false, 0,
          [w 42 [0, 0, 0, 9, 0, 0, 0, 0, 0, 0, 0, 255] .ok]) := by decide
-- G2, G9.
theorem test_graph_beyond_bounds :
    (view (exec (.graph [-5, 0, 3, 4, 6, 8, 9, 10, 15, 20] (some 0) (some 10)) (st z11 0)))
      = some ([0, 0, 0, 16, 24, 28, 28, 31, 31, 31, 0], 0, false, 0,
          [w 42 [0, 0, 0, 16, 24, 28, 28, 31, 31, 31, 0, 255] .ok]) := by decide +kernel
theorem test_graph_grows :
    (view (exec (.graph [0, 1, 2, 3, 4, 5, 6, 7, 8, 9, 10, 11, 12] none none) (st z11 0))).map (·.1)
      = some [0, 0, 0, 0, 0, 16, 16, 16, 24, 24, 28, 28, 31] := by decide +kernel
-- A3, A4.
theorem test_setcol_gap : view (exec (.setcol 12 0x1F) (st z11 0))
      = some (z11 ++ [0, 31], 0, false, 0, []) := by decide
theorem test_setcol_high_bits : view (exec (.setcol 0 0xE1) (st z11 0))
      = some ([225, 0, 0, 0, 0, 0, 0, 0, 0, 0, 0], 0, false, 0, []) := by decide
-- A7, A10.
theorem test_setpix_clears : view (exec (.setpix 3 4 false) (st [0, 0, 0, 17, 0, 0, 0, 0, 0, 0, 0] 0))
      = some ([0, 0, 0, 1, 0, 0, 0, 0, 0, 0, 0], 0, false, 0, []) := by decide
theorem test_setpix_clear_grows : view (exec (.setpix 14 2 false) (st z11 0))
      = some (z11 ++ [0, 0, 0, 0], 0, false, 0, []) := by decide
-- A13, A15.
theorem test_setbuf_reduces :
    view (exec (.setbuf [5, 6, 7, 8, 9, 10, 11, 12, 13, 14, 15]) (st (b13 ++ [0, 0, 0, 0, 0, 0, 0]) 15))
      = some ([5, 6, 7, 8, 9, 10, 11, 12, 13, 14, 15], 4, false, 0, []) := by decide
theorem test_setbuf_short : exec (.setbuf [1, 2, 3, 4, 5, 6, 7, 8, 9, 10]) (st z11 0)
      = .refused .shortBuffer := rfl
-- A16.
theorem test_buflen : view (exec .buflen (st (z11 ++ [0, 31]) 0))
      = some (z11 ++ [0, 31], 0, false, 0, [.resp 13]) := by decide
-- W15, W4.
theorem test_scroll_failing : view (exec (.scroll 2) (failing (st b13 5) 3))
      = some (b13, 7, false, 4, [w 42 [8, 9, 10, 11, 12, 13, 1, 2, 3, 4, 5, 255] .fail]) := by decide
theorem test_scroll_back : view (exec (.scroll (-1)) (st b13 0))
      = some (b13, 12, false, 0, [w 42 [13, 1, 2, 3, 4, 5, 6, 7, 8, 9, 10, 255] .ok]) := by decide
-- W8, W10.
theorem test_scrollto_negative : view (exec (.scrollto (-3)) (st b13 1))
      = some (b13, 10, false, 0, [w 42 [11, 12, 13, 1, 2, 3, 4, 5, 6, 7, 8, 255] .ok]) := by decide
theorem test_scrollto_wraps : (view (exec (.scrollto 40) (st b13 0))).map (·.2.1) = some 1 := by decide
-- A12.
theorem test_clear : view (exec .clear (failing { st (b13 ++ b13) 7 with rot := true } 3))
      = some (z11, 0, true, 3, []) := by decide
-- T8, T9.
theorem test_loadfont_replaces :
    (nextOf (exec (.loadfont [(65, [0x1E, 0x05, 0x1E])]) (st z11 0))).map
        (fun t => (fontLookup t.font 65, fontLookup t.font 72, t.trace))
      = some (some [0x1E, 0x05, 0x1E], none, []) := by decide
theorem test_loadfont_empty :
    (nextOf (exec (.loadfont []) (st [31, 4, 31, 0, 23, 0, 0, 0, 0, 0, 0] 0))).map
        (fun t => (t.buf.columns, t.font)) = some ([31, 4, 31, 0, 23, 0, 0, 0, 0, 0, 0], []) := by
  decide
-- V11.
theorem test_ioerr : view (exec .ioerr (failing (st z11 0) 7))
      = some (z11, 0, false, 7, [.resp 7]) := by decide
-- W11, V8.
theorem test_update_rotated :
    view (exec .update { st [5, 6, 7, 8, 9, 10, 11, 12, 13, 14, 15] 9 with rot := true })
      = some ([5, 6, 7, 8, 9, 10, 11, 12, 13, 14, 15], 9, true, 0,
          [w 42 [22, 6, 26, 10, 18, 2, 28, 12, 20, 30, 14, 255] .ok]) := by decide
theorem test_update_no_second_notice : view (exec .update (failing (st z11 0) 10))
      = some (z11, 0, false, 11, [w 42 [0, 0, 0, 0, 0, 0, 0, 0, 0, 0, 0, 255] .fail]) := by decide
-- W16.
theorem test_setrot : view (exec (.setrot true) (st b13 3)) = some (b13, 3, true, 0, []) := by decide

/-! ### The functions -/

/-- The table of R131, low and high columns. -/
theorem test_rotate5 : ([0, 1, 2, 3, 5, 7, 19, 23, 30, 31, 32, 0x24, 0xFF].map rotate5)
    = [0, 16, 8, 24, 20, 28, 25, 29, 15, 31, 0, 4, 31] := by decide

/-- The levels of R171. -/
theorem test_levels : ([-5, 0, 1, 3, 4, 5, 6, 7, 8, 9, 10, 15, 20].map (graphLevel 0 10))
    = [-2, 0, 0, 1, 2, 2, 3, 3, 4, 4, 5, 7, 10] := by decide +kernel

/-- An inverted graph (G8), a degenerate one (G4), a bound given beside an automatic one (G10). -/
theorem test_graph_columns : graphColumns [0, 5, 10] (some 10) (some 0) = [31, 16, 0]
    ∧ graphColumns [7, 7, 7] none none = [31, 31, 31]
    ∧ graphColumns [0, 10] none (some 20) = [0, 16] := by decide +kernel

/-- The floored modulo of R8. -/
theorem test_floorMod : floorMod (-1) 13 = 12 ∧ floorMod 40 13 = 1 ∧ floorMod (-3) 13 = 10 := by decide

/-- A response's bytes (R88), saturated. -/
theorem test_response : responseBytes 13 = [13, 0, 0, 0]
    ∧ responseBytes (2 ^ 32) = [0xFF, 0xFF, 0xFF, 0xFF] := by decide

/-- The conditions in their order (R206): two misses, then the failed push. -/
theorem test_conditions :
    conditions (.wrstr [63, 72, 32, 66] 0) (failing (st z11 0) 0)
      = [.glyphLookupMiss 63, .glyphLookupMiss 66, .transportError .draw]
    ∧ conditions (.graph [3, 9] (some 4) (some 4)) (st z11 0) = [.degenerateScalingRange 4] := by
  decide +kernel

/-! ### Witnesses: packets and the step -/

/-- Every operand field at a boundary of its range. -/
theorem witness_DecodeEncodeRoundTrip :
    ([.wrstr [0, 2 ^ 32 - 1] (2 ^ 32 - 1), .graph [-2 ^ 31, 2 ^ 31 - 1] (some (-2 ^ 31)) none,
      .graph [] none (some (2 ^ 31 - 1)), .setcol (2 ^ 32 - 1) 0xFF, .setpix (2 ^ 32 - 1) 7 false,
      .setbuf z11, .scroll (-2 ^ 31), .scrollto (2 ^ 31 - 1), .setrot true, .init, .setmode 0xFF,
      .loadfont [(0, []), (2 ^ 32 - 1, List.replicate 255 1)]] : List Instr).all
      Instr.wellFormed = true := by decide +kernel
theorem witness_DecodedIsWellFormed : decode (encode (.scroll (-1))) = .ok (.scroll (-1)) := rfl
/-- One packet for each of the cases (a) to (h) of R87, and the step's clause. -/
theorem witness_InvalidPacketsExactly : packetInvalid [] ∧ packetInvalid [0x00] ∧ packetInvalid [0x11]
    ∧ packetInvalid [0x01, 0x00] ∧ packetInvalid [0x10, 2] ∧ packetInvalid [0x07, 3, 0, 0, 0, 8, 1]
    ∧ packetInvalid [0x05, 4, 0, 0, 0, 0, 0, 0, 0, 0, 0, 0, 0, 0]
    ∧ packetInvalid [0x0D, 2, 0, 0, 0, 5, 0, 0, 0, 0, 5, 0, 0, 0, 0]
    ∧ packetInvalid [0x08, 10, 0, 0, 0, 1, 2, 3, 4, 5, 6, 7, 8, 9, 10]
    ∧ ¬ packetInvalid [0x08, 11, 0, 0, 0, 1, 2, 3, 4, 5, 6, 7, 8, 9, 10, 11]
    ∧ ({ st z11 0 with port := [.packet [0x00]] } : State).port = .packet [0x00] :: [] := by
  refine ⟨?_, ?_, ?_, ?_, ?_, ?_, ?_, ?_, ?_, ?_, rfl⟩ <;> (unfold packetInvalid; decide)
theorem witness_DecodedPacketIsItsEncoding : decode [0x06, 0x0C, 0, 0, 0, 0x1F] = .ok (.setcol 12 0x1F)
    ∧ (Instr.setcol 12 0x1F).op ≠ .setpix ∧ (Instr.setcol 12 0x1F).op ≠ .graph :=
  ⟨rfl, by decide, by decide⟩
/-- Each variable layout with its least and a longer operand, a glyph of the greatest width. -/
theorem witness_PacketLayouts : (11 ≤ z11.length ∧ z11.length < 2 ^ 32)
    ∧ ([] : List (BitVec 32)).length < 2 ^ 32 ∧ ([0xFFFFFFFF] : List (BitVec 32)).length < 2 ^ 32
    ∧ (∀ e ∈ ([(0, []), (0xFFFFFFFF, List.replicate 255 0)] : List (BitVec 32 × Glyph)),
        e.2.length < 2 ^ 8)
    ∧ ([(0, []), (0xFFFFFFFF, List.replicate 255 0)] : List (BitVec 32 × Glyph)).Pairwise
        (fun a b => a.1 < b.1) := by decide +kernel
theorem witness_StepRunsDecodedCommand :
    (({ st z11 0 with port := [.packet [0x0F]] } : State).port = .packet [0x0F] :: []
      ∧ decode [0x0F] = .ok .update)
    ∧ ({ st z11 0 with port := [.command (.setcol (2 ^ 40) 1)] } : State).port
        = .command (.setcol (2 ^ 40) 1) :: []
    ∧ decodeTableWord 8 0x0A = some (.scroll 0) := ⟨⟨rfl, rfl⟩, rfl, rfl⟩
theorem witness_EmptyPortStepIdles : State.reset.port = [] := rfl
theorem witness_StepTakesOneCommand :
    ∃ t, step { st z11 0 with port := [.command .update, .command .clear] } = .next t
      ∧ t.port = [.command .clear] := ⟨_, rfl, rfl⟩

/-! ### Witnesses: invariants -/

/-- A state with a finite capacity exactly used and a finite counter exactly full. -/
def edge : State :=
  { st b13 12 with
    err := 10
    answers := [.fail]
    cfg := { cfg with bufCap := some 13, errMax := some 10 }
    trace := .opened 9 :: List.replicate 10 (w 41 [2] .fail) ++ [.notice]
    port := [.packet [0x0F]] }

theorem witness_StepKeepsRegisterInvariant : edge.Inv ∧ ∃ t, step edge = .next t :=
  ⟨by decide, _, rfl⟩
theorem witness_StepKeepsErrorAccounting :
    edge.cfg.wf ∧ edge.Accounted ∧ ∃ t, step edge = .next t := ⟨by decide, by decide, _, rfl⟩
theorem witness_StepKeepsTrafficLegal : edge.TrafficLegal ∧ ∃ t, step edge = .next t := by
  refine ⟨?_, _, rfl⟩
  intro e he
  simp only [edge, w, List.cons_append, List.mem_cons, List.mem_append, List.mem_replicate,
    List.not_mem_nil, or_false] at he
  rcases he with rfl | ⟨-, rfl⟩ | rfl
  · rfl
  · exact ⟨rfl, .inr (.inl ⟨rfl, rfl⟩)⟩
  · trivial
theorem witness_NoFaultFromInvariant : edge.Inv := by decide

/-! ### Witnesses: whole-machine rules -/

/-- Each register changed by one of its writers, and `LEN` and `ERR` lowered. -/
theorem witness_WritersOfRegisters :
    (∃ t, exec (.setrot true) (st b13 3) = .next t ∧ t.rot ≠ (st b13 3).rot)
    ∧ (∃ t, exec (.loadfont []) (st b13 3) = .next t ∧ t.font ≠ (st b13 3).font)
    ∧ (∃ t, exec .init (closed (failing (st b13 3) 5)) = .next t ∧ t.busOpen ≠ false ∧ t.off ≠ 3
        ∧ t.buf ≠ (st b13 3).buf ∧ t.buf.len < (st b13 3).buf.len ∧ t.err < 5)
    ∧ (∃ t, exec (.setbrt 1) (failing (st b13 3) 5) = .next t ∧ t.err ≠ 5)
    ∧ ∀ m ∈ (st b13 3).cfg.errMax, 5 ≤ m :=
  ⟨⟨_, rfl, by decide⟩, ⟨_, rfl, by decide⟩,
    ⟨_, rfl, by decide, by decide, by decide, by decide, by decide⟩, ⟨_, rfl, by decide⟩, by decide⟩
theorem witness_BusWritesPerCommand : (∃ t, exec .init (st z11 0) = .next t)
    ∧ (∃ t, exec (.scroll 1) (st z11 0) = .next t) ∧ ∃ t, exec .buflen (st z11 0) = .next t :=
  ⟨⟨_, rfl⟩, ⟨_, rfl⟩, ⟨_, rfl⟩⟩
/-- One command of each group, at a capacity exactly used, and INIT's bit kept by another command. -/
theorem witness_BusWritersRefusedBeforeInit : (capped (closed (st z11 0)) 11).busOpen = false
    ∧ (Instr.scroll 1).op ∈ [Op.setmode, Op.setbrt, Op.scroll, Op.scrollto, Op.wrstr, Op.graph, Op.update]
    ∧ ((Instr.setbuf z11).op ∈ [Op.setcol, Op.setpix, Op.clear, Op.setbuf, Op.buflen, Op.loadfont,
          Op.ioerr, Op.setrot]
        ∧ (∀ cols, Instr.setbuf z11 = .setbuf cols → 11 ≤ cols.length)
        ∧ ∀ cap, (capped (closed (st z11 0)) 11).cfg.bufCap = some cap →
            askedLength (capped (closed (st z11 0)) 11) (.setbuf z11) ≤ cap)
    ∧ (st z11 0).busOpen = true ∧ ∃ t, exec .clear (st z11 0) = .next t := by
  refine ⟨rfl, by decide, ⟨by decide, ?_, ?_⟩, rfl, _, rfl⟩
  · intro cols h; cases h; decide
  · intro cap h; cases h; decide
/-- At a capacity of 13: the first column that does not fit, and 14 columns each other way. -/
theorem witness_CapacityRefusals : (capped (st z11 0) 13).cfg.bufCap = some 13 ∧ 13 ≤ 13
    ∧ (11 ≤ (b13 ++ [0]).length ∧ 13 < (b13 ++ [0]).length)
    ∧ (capped (st z11 0) 13).busOpen = true ∧ [72] ≠ []
    ∧ 13 < 10 + textWidth 32 f1 [72]
    ∧ 13 < (List.replicate 14 (0 : Rat)).length := by decide
/-- Each refusal of a command met once, with its case of the list; the lengths that just exceed and just
fit a capacity. -/
theorem witness_RefusalsAreListed :
    (exec (.setbuf [1]) (st z11 0) = .refused .shortBuffer
        ∧ refusalListed (.setbuf [1]) (st z11 0) .shortBuffer)
    ∧ (exec (.scroll 1) (closed (st z11 0)) = .refused .busNotOpen
        ∧ refusalListed (.scroll 1) (closed (st z11 0)) .busNotOpen)
    ∧ (exec (.setcol 13 1) (capped (st z11 0) 13) = .refused .capacity
        ∧ refusalListed (.setcol 13 1) (capped (st z11 0) 13) .capacity)
    ∧ ¬ 13 < askedLength (st z11 0) (.setcol 12 1) ∧ ¬ 13 < askedLength (st z11 0) (.wrstr [] 40) :=
  ⟨⟨rfl, .inl ⟨rfl, _, rfl, by decide⟩⟩, ⟨rfl, .inr (.inl ⟨rfl, rfl, by decide⟩)⟩,
    ⟨rfl, .inr (.inr ⟨rfl, 13, rfl, by decide⟩)⟩, by decide, by decide⟩
/-- A step refused for an invalid packet, and one refused as its command. -/
theorem witness_RefusalsAreListed_step :
    (({ st z11 0 with port := [.packet [0x00]] } : State).port.head? = some (.packet [0x00])
      ∧ packetInvalid [0x00]
      ∧ step { st z11 0 with port := [.packet [0x00]] } = .refused (.invalidPacket (.reservedOpcode 0)))
    ∧ readSubmission (.packet [0x06, 13, 0, 0, 0, 1]) = .ok (.setcol 13 1)
    ∧ step ((capped (st z11 0) 13).submit (.packet [0x06, 13, 0, 0, 0, 1])) = .refused .capacity :=
  ⟨⟨rfl, .inr (.inl (.inl rfl)), rfl⟩, rfl, rfl⟩
theorem witness_FailuresUndoNothing : ∃ t, exec (.scroll 2) (st b13 5) = .next t := ⟨_, rfl⟩
theorem witness_ConditionsOfACommand :
    (∃ t, exec (.wrstr [63] 0) (failing (st z11 0) 0) = .next t)
    ∧ conditions (.wrstr [63] 0) (failing (st z11 0) 0)
        = [.glyphLookupMiss 63] ++ .transportError .draw :: []
    ∧ (∃ t, exec (.graph [3] none none) (st z11 0) = .next t)
    ∧ Condition.degenerateScalingRange 3 ∈ conditions (.graph [3] none none) (st z11 0) :=
  ⟨⟨_, rfl⟩, by decide, ⟨_, rfl⟩, by decide +kernel⟩

/-! ### Witnesses: arithmetic, framebuffer -/

theorem witness_FlooredModulo : 1 ≤ 1 ∧ 12 < 13 ∧ ((13 : Nat) : Int) ∣ (-1) - ((12 : Nat) : Int) := by
  decide
theorem witness_GrowAppendsZeroColumns : (st b13 0).buf.wf := by decide
/-- The last column that fits, the gap before it, and the first that does not. -/
theorem witness_SetcolWritesOneColumn : (st z11 0).buf.wf ∧ fitsCap (capped (st z11 0) 13).cfg (12 + 1) = true
    ∧ fitsCap (capped (st z11 0) 13).cfg (13 + 1) = false
    ∧ (st z11 0).buf.len ≤ 11 ∧ 11 < 12 ∧ 11 ≠ 12 := by decide
theorem witness_SetpixChangesOneBit : (st z11 0).buf.wf ∧ fitsCap (capped (st z11 0) 13).cfg (12 + 1) = true
    ∧ fitsCap (capped (st z11 0) 13).cfg (13 + 1) = false ∧ 6 ≠ (7 : Fin 8).val ∧ 11 ≠ 12
    ∧ (st z11 0).buf.len ≤ 11 := by decide
theorem witness_SetpixPairLeavesBitClear : (st b13 0).buf.wf ∧ ∃ t u,
    exec (.setpix 13 7 true) (st b13 0) = .next t ∧ exec (.setpix 13 7 false) t = .next u :=
  ⟨by decide, _, _, rfl, rfl⟩
theorem witness_SetbufReplacesBuffer :
    (11 ≤ z11.length ∧ fitsCap (capped (st b13 12) 13).cfg z11.length = true ∧ ¬ (12 < z11.length))
    ∧ (11 ≤ b13.length ∧ fitsCap (capped (st b13 12) 13).cfg b13.length = true ∧ 12 < b13.length)
    ∧ (z11.drop 1).length < 11
    ∧ (11 ≤ (b13 ++ [0]).length ∧ fitsCap (capped (st b13 12) 13).cfg (b13 ++ [0]).length = false) := by
  decide

/-! ### Witnesses: window -/

/-- The last offset without a wrap, and the first with one. -/
theorem witness_WindowIsTwoSlices : 11 ≤ (st b13 0).buf.len ∧ 2 < (st b13 0).buf.len
    ∧ 2 + 11 ≤ (st b13 0).buf.len ∧ 3 < (st b13 0).buf.len ∧ (st b13 0).buf.len < 3 + 11 := by decide
theorem witness_WindowReadsCircularly : 11 ≤ (st z11 10).buf.len ∧ 10 < (st z11 10).buf.len
    ∧ 10 < 11 ∧ (10 + 1) % (st z11 10).buf.len = (10 + 1) % (st z11 10).buf.len := by decide
theorem witness_FrameLayout : (st b13 12).windowDefined ∧ (st b13 12).rot = false
    ∧ ({ st b13 12 with rot := true } : State).windowDefined
    ∧ ({ st b13 12 with rot := true } : State).rot = true := by decide
theorem witness_RotationTwiceRestores : ∀ c ∈ (31 :: b13 : List Byte), c.toNat < 32 := by decide
theorem witness_ScrollMovesOffsetAndPushes : (11 ≤ (st z11 0).buf.len ∧ (st z11 0).busOpen = true)
    ∧ State.reset.busOpen = false := ⟨by decide, rfl⟩
theorem witness_ScrolltoSetsOffsetAndPushes : (11 ≤ (st z11 0).buf.len ∧ (st z11 0).busOpen = true)
    ∧ State.reset.busOpen = false := ⟨by decide, rfl⟩
theorem witness_ScrollAndFrameProperties : (st b13 12).windowDefined ∧ (31 : Byte).toNat < 32
    ∧ ((st b13 12).off < (st b13 12).buf.len ∧ ∃ t u,
        exec (.scroll 27) (st b13 12) = .next t ∧ exec (.scroll (-27)) t = .next u)
    ∧ ∃ t, exec (.scrollto (-3)) (st b13 12) = .next t :=
  ⟨by decide, by decide, ⟨by decide, _, _, rfl, rfl⟩, _, rfl⟩

/-! ### Witnesses: text and graph -/

theorem witness_CharacterColumns : fontLookup f1 63 = none ∧ 72 ≠ 32
    ∧ fontLookup f1 72 = some [0x1F, 0x04, 0x1F] := by decide
/-- A text that exactly fills a capacity of 16 (T10), the empty text, and a text one column too long. -/
theorem witness_WrstrRendersAndPushesOnce : (st z11 0).buf.wf ∧ (capped (st z11 0) 16).windowDefined
    ∧ (capped (st z11 0) 16).busOpen = true
    ∧ fitsCap (capped (st z11 0) 16).cfg (12 + textWidth 32 f1 [72]) = true
    ∧ ((st z11 0).buf.len ≤ 11 ∧ 11 < 12) ∧ 3 < textWidth 32 f1 [72]
    ∧ (closed (st z11 0)).busOpen = false
    ∧ ([72] ≠ [] ∧ fitsCap (capped (st z11 0) 16).cfg (13 + textWidth 32 f1 [72]) = false) := by decide
theorem witness_EmptyRendersEqualUpdate : (st b13 12).off < (st b13 12).buf.len := by decide
theorem witness_LoadfontOfATable : fontOrdered f1 ∧ fontOrdered [] := by decide
theorem witness_LoadfontReplacesMap : fontOrdered f1 := by decide
theorem witness_GraphRendersAndPushesOnce : (st z11 0).buf.wf ∧ (capped (st z11 0) 13).windowDefined
    ∧ (capped (st z11 0) 13).busOpen = true
    ∧ fitsCap (capped (st z11 0) 13).cfg (List.replicate 13 (1 : Rat)).length = true
    ∧ List.replicate 13 (1 : Rat) ≠ []
    ∧ (closed (st z11 0)).busOpen = false
    ∧ fitsCap (capped (st z11 0) 13).cfg (List.replicate 14 (1 : Rat)).length = false := by
  decide
/-- A sample below the bounds, at the low bound, and the degenerate range. -/
theorem witness_GraphLevelTruncates : ((4 : Rat) - 4 = 0) ∧ ((10 : Rat) - 0 ≠ 0
    ∧ (((-5 : Rat) - 0) / (10 - 0) * 5 ≤ 0 ∧ 0 ≤ ((0 : Rat) - 0) / (10 - 0) * 5)) := by decide +kernel
/-- Equal bounds given, one of them automatic, both automatic over one sample. -/
theorem witness_DegenerateRangeFillsColumns : (st z11 0).buf.wf ∧ (st z11 0).windowDefined
    ∧ (st z11 0).busOpen = true ∧ fitsCap (st z11 0).cfg ([3, 9] : List Rat).length = true
    ∧ ([3, 9] : List Rat) ≠ []
    ∧ (isLowBound [3, 9] (some 4) 4 ∧ isHighBound [3, 9] (some 4) 4)
    ∧ (isLowBound [3, 9] none 3 ∧ isHighBound [3, 9] (some 3) 3)
    ∧ (isLowBound [42] none 42 ∧ isHighBound [42] none 42) := by decide +kernel
theorem witness_GraphLevelOfIntegers : (10 : Int) ≠ 0 := by decide
/-- The masks at the ends of their ranges. -/
theorem witness_GraphMaskTable : graphMask 1 = 0 ∧ graphMask 2 = 16 ∧ graphMask 3 = 24
    ∧ graphMask 4 = 28 ∧ graphMask 5 = 31 := by decide

/-! ### Witnesses: driver -/

theorem witness_InitOpensAndResets : (st z11 0).nextAnswer = .ok
    ∧ ((failing (st z11 0) 12).cfg.wf ∧ (failing (st z11 0) 12).nextAnswer = .fail) := by decide
theorem witness_SetmodeWritesConstant : (st z11 0).busOpen = true ∧ (closed (st z11 0)).busOpen = false := by
  decide
theorem witness_SetbrtWritesLevel : (st z11 0).busOpen = true ∧ (closed (st z11 0)).busOpen = false := by
  decide
theorem witness_UpdatePushesFrame : (st b13 12).windowDefined ∧ (st b13 12).busOpen = true
    ∧ (closed (st z11 0)).busOpen = false := by decide
/-- The count just below the notice, at it, and a counter that is full. -/
theorem witness_BusWriteAccounting : (closed (st z11 0)).busOpen = false ∧ (st z11 0).busOpen = true
    ∧ (st z11 0).nextAnswer = .ok ∧ (failing (st z11 0) 9).nextAnswer = .fail
    ∧ (failing (st z11 0) 9).err = 9 ∧ (failing (st z11 0) 10).err ≠ 9
    ∧ (failing (st z11 0) 9).cfg.errMax = none ∧ edge.cfg.errMax = some 10 := by decide

end Sys2Proof.Tests
end

section
/-! PROOFS. Scope: the floored modulo (spec/00_scope.md R8) and the command a step runs
(00_scope.md R5, R2). -/

namespace Sys2Proof.Machine

/-! ### Floored modulo -/

/-- The characterisation R8 defines `mod` by; both halves of the obligation are read off it. -/
theorem floorMod_eq_iff {a : Int} {l r : Nat} (hl : 0 < l) :
    floorMod a l = r ↔ r < l ∧ (l : Int) ∣ a - r := by
  constructor
  · rintro rfl
    refine ⟨floorMod_lt a hl, ?_⟩
    rw [floorMod_cast a hl]
    exact Int.dvd_self_sub_emod
  · rintro ⟨hr, hdvd⟩
    have hmod : (r : Int) % l = a % l := Int.modEq_iff_dvd.2 hdvd
    have hcast : (floorMod a l : Int) = r :=
      calc (floorMod a l : Int) = a % l := floorMod_cast a hl
        _ = r % l := hmod.symm
        _ = r := Int.emod_eq_of_lt (by omega) (by omega)
    exact_mod_cast hcast

/-- Settles O23: existence and uniqueness are the two directions of `floorMod_eq_iff`. -/
theorem flooredModulo : Obligations.FlooredModulo := by
  intro a l hl
  obtain ⟨hlt, hdvd⟩ := (floorMod_eq_iff (a := a) hl).1 rfl
  exact ⟨hlt, hdvd, fun r hr hr' => ((floorMod_eq_iff hl).2 ⟨hr, hr'⟩).symm⟩

/-! ### The command a step runs -/

/-- Whatever `exec` answers, the step answers: next state, fault and refusal alike. -/
theorem step_of_port {s : State} {c : Submission} {rest : List Submission} {i : Instr}
    (hport : s.port = c :: rest) (hread : readSubmission c = .ok i) :
    step s = exec i { s with port := rest } := by
  simp [step, hport, hread, State.accept]

/-- A step right after a submission runs it on the state as it stood before. -/
theorem step_submit {c : Submission} {i : Instr} (s : State) (hread : readSubmission c = .ok i) :
    step (s.submit c) = exec i s :=
  step_of_port (s.submit_port c) hread

theorem decodeTableWord_eq_some {nbits w : Nat} {i : Instr} :
    decodeTableWord nbits w = some i ↔ decode (tablePacket nbits w) = .ok i := by
  unfold decodeTableWord
  cases decode (tablePacket nbits w) <;> simp [Except.toOption]

/-- Settles O7: each kind of submission is read as its command, and `step_of_port` runs that. -/
theorem stepRunsDecodedCommand : Obligations.StepRunsDecodedCommand := by
  refine ⟨?packet, ?command, ?tableWord⟩
  case packet => exact fun s p rest i hport hdec => step_of_port hport hdec
  case command => exact fun s rest i hport => step_of_port hport rfl
  case tableWord => exact fun s nbits w i hw => step_submit s (decodeTableWord_eq_some.1 hw)

end Sys2Proof.Machine
end

section
/-! PROOFS. Scope: the state at construction and the register invariants (spec/10_state.md R20 to R38),
the error accounting (44_driver.md R180). -/

namespace Sys2Proof.Machine

variable {s t : State} {i : Instr}

/-- Settles O10: the font is `FONT0` by lookup, the rest is the literal state. -/
theorem resetStateAtConstruction : Obligations.ResetStateAtConstruction :=
  ⟨rfl, rfl, rfl, rfl, rfl, rfl, rfl, fontLookup_fontOfEntries _⟩

/-! ### What a command does before its bus write

Every command changes its registers first and then makes at most one bus write (R188). -/

/-- The state a command leaves if it completes, up to its bus write. -/
def State.beforeWrite (s : State) : Instr → State
  | .init => s.opened
  | .setmode _ => s
  | .setbrt _ => s
  | .wrstr text x => s.setBuf (textBuf s text x)
  | .graph values low high => s.setBuf (s.buf.setCols 0 (graphColumns values low high))
  | .setcol x v => s.setBuf (s.buf.setCol x v)
  | .setpix x y v => s.setBuf (s.buf.setCol x (pixelColumn (s.buf.read x) y v))
  | .setbuf cols => (s.setBuf (Memory.ofColumns cols)).setOff (floorMod s.off cols.length)
  | .buflen => s.respond s.buf.len
  | .scroll d => s.setOff (floorMod (s.off + d) s.buf.len)
  | .scrollto p => s.setOff (floorMod p s.buf.len)
  | .clear => (s.setBuf Memory.blank).setOff 0
  | .loadfont f => s.setFont (fontOfEntries f)
  | .ioerr => s.respond s.err
  | .update => s
  | .setrot r => s.setRot r

/-- Everything a command that completes can do: its register changes, then the bus write of R188 if it
has one. -/
theorem exec_next_cases (h : exec i s = .next t) :
    (busRegOf i = none ∧ t = s.beforeWrite i)
      ∨ ∃ reg, busRegOf i = some reg
        ∧ t = (s.beforeWrite i).afterWrite reg (payloadOf i (s.beforeWrite i)) := by
  cases i with
  | init => exact .inr ⟨_, rfl, exec_init_eq_next.1 h⟩
  | setmode m => exact .inr ⟨_, rfl, (exec_setmode_eq_next.1 h).2⟩
  | setbrt b => exact .inr ⟨_, rfl, (exec_setbrt_eq_next.1 h).2⟩
  | wrstr text x =>
    obtain ⟨-, -, -, ht⟩ := exec_wrstr_eq_next.1 h
    exact .inr ⟨_, rfl, ht⟩
  | graph values low high =>
    obtain ⟨-, -, -, ht⟩ := exec_graph_eq_next.1 h
    exact .inr ⟨_, rfl, ht⟩
  | scroll d =>
    obtain ⟨-, -, ht⟩ := exec_scroll_eq_next.1 h
    exact .inr ⟨_, rfl, ht⟩
  | scrollto p =>
    obtain ⟨-, -, ht⟩ := exec_scrollto_eq_next.1 h
    exact .inr ⟨_, rfl, ht⟩
  | update =>
    obtain ⟨-, -, ht⟩ := exec_update_eq_next.1 h
    exact .inr ⟨_, rfl, ht⟩
  | setcol x v => exact .inl ⟨rfl, (exec_setcol_eq_next.1 h).2⟩
  | setpix x y v => exact .inl ⟨rfl, (exec_setpix_eq_next.1 h).2⟩
  | setbuf cols =>
    obtain ⟨-, -, ht⟩ := exec_setbuf_eq_next.1 h
    exact .inl ⟨rfl, ht⟩
  | buflen => exact .inl ⟨rfl, exec_buflen_eq_next.1 h⟩
  | clear => exact .inl ⟨rfl, exec_clear_eq_next.1 h⟩
  | loadfont f => exact .inl ⟨rfl, exec_loadfont_eq_next.1 h⟩
  | ioerr => exact .inl ⟨rfl, exec_ioerr_eq_next.1 h⟩
  | setrot r => exact .inl ⟨rfl, exec_setrot_eq_next.1 h⟩

/-- A property that every bus write keeps and that holds after the register changes holds after the
command. -/
theorem exec_next_of_beforeWrite {P : State → Prop}
    (hwrite : ∀ (u : State) (reg : BusReg) (bytes : List Byte), P u → P (u.afterWrite reg bytes))
    (hbefore : P (s.beforeWrite i)) (h : exec i s = .next t) : P t := by
  obtain ⟨-, rfl⟩ | ⟨reg, -, rfl⟩ := exec_next_cases h
  · exact hbefore
  · exact hwrite _ reg _ hbefore

/-- A property kept by every command, and by taking the submission off the port, is kept by a step. -/
theorem step_next_of_exec {P : State → Prop} (haccept : P s → P s.accept)
    (hexec : ∀ i, P s.accept → exec i s.accept = .next t → P t)
    (hs : P s) (h : step s = .next t) : P t := by
  obtain ⟨-, rfl⟩ | ⟨_, _, i, -, -, hi⟩ := step_eq_next.1 h
  · exact hs
  · exact hexec i (haccept hs) hi

/-! ### The window stays defined -/

theorem Memory.le_len_setCols (m : Memory) (x : Nat) (cols : List Byte) :
    m.len ≤ (m.setCols x cols).len := by
  rw [Memory.len_setCols]
  split <;> omega

theorem State.windowDefined.setBuf {m : Memory} (h : s.windowDefined) (hm : s.buf.len ≤ m.len) :
    (s.setBuf m).windowDefined :=
  ⟨h.1.trans hm, h.2.trans_le hm⟩

theorem State.windowDefined.setOff_floorMod (h : s.windowDefined) (a : Int) :
    (s.setOff (floorMod a s.buf.len)).windowDefined :=
  ⟨h.1, floorMod_lt a (Nat.zero_lt_of_lt h.2)⟩

/-! ### No fault -/

theorem next_ne_fault (u : State) (r : Fault) : (.next u : Outcome) ≠ .fault r := by simp

theorem whenOpen_ne_fault {o : Outcome} {r : Fault} (h : o ≠ .fault r) : whenOpen s o ≠ .fault r := by
  unfold whenOpen
  split
  · exact h
  · simp

theorem whenFits_ne_fault {n : Nat} {o : Outcome} {r : Fault} (h : o ≠ .fault r) :
    whenFits s n o ≠ .fault r := by
  unfold whenFits
  split
  · exact h
  · simp

theorem busWrite_ne_fault (reg : BusReg) (bytes : List Byte) (r : Fault) :
    busWrite reg bytes s ≠ .fault r :=
  whenOpen_ne_fault (next_ne_fault _ r)

theorem push_ne_fault (h : s.windowDefined) (r : Fault) : push s ≠ .fault r := by
  rw [push_eq_busWrite h]
  exact busWrite_ne_fault _ _ r

/-- The five commands that push do so in a state whose window is still defined. -/
theorem exec_ne_fault (h : s.windowDefined) (i : Instr) (r : Fault) : exec i s ≠ .fault r := by
  cases i with
  | init => exact busWrite_ne_fault (s := s.opened) _ _ r
  | setmode m | setbrt b => exact busWrite_ne_fault _ _ r
  | wrstr text x =>
    refine whenOpen_ne_fault (whenFits_ne_fault (push_ne_fault (h.setBuf ?_) r))
    rw [renderText_eq]
    exact Memory.le_len_setCols ..
  | graph values low high =>
    exact whenOpen_ne_fault
      (whenFits_ne_fault (push_ne_fault (h.setBuf (Memory.le_len_setCols ..)) r))
  | scroll d => exact push_ne_fault (h.setOff_floorMod _) r
  | scrollto p => exact push_ne_fault (h.setOff_floorMod p) r
  | update => exact push_ne_fault h r
  | setcol x v | setpix x y v => exact whenFits_ne_fault (next_ne_fault _ r)
  | setbuf cols =>
    show (if cols.length < minLen then _ else _) ≠ _
    split
    · simp
    · exact whenFits_ne_fault (next_ne_fault _ r)
  | buflen | clear | loadfont f | ioerr | setrot b => exact next_ne_fault _ r

/-- Settles O15: a step is idle, refused or a command, and no command faults where the window is
defined. -/
theorem noFaultFromInvariant : Obligations.NoFaultFromInvariant := by
  rintro s ⟨-, hwindow, -⟩ r
  unfold step
  split
  · simp
  · split
    · simp
    · exact exec_ne_fault (s := s.accept) hwindow _ r

/-! ### The counter -/

theorem saturateErr_of_none {c : Config} (h : c.errMax = none) (n : Nat) : saturateErr c n = n := by
  simp [saturateErr, h]

theorem saturateErr_of_some {c : Config} {m : Nat} (h : c.errMax = some m) (n : Nat) :
    saturateErr c n = min n m := by
  simp [saturateErr, h]

theorem saturateErr_le {c : Config} (n : Nat) : ∀ m ∈ c.errMax, saturateErr c n ≤ m := by
  intro m hm
  rw [saturateErr_of_some hm]
  exact Nat.min_le_right ..

theorem saturateErr_zero (c : Config) : saturateErr c 0 = 0 := by
  unfold saturateErr
  split <;> simp

/-- One more failure counted from a counter that may have stopped already. -/
theorem saturateErr_succ (c : Config) (n : Nat) :
    saturateErr c (saturateErr c n + 1) = saturateErr c (n + 1) := by
  cases hm : c.errMax with
  | none => simp only [saturateErr_of_none hm]
  | some m => simp only [saturateErr_of_some hm]; omega

/-- A legal counter does not stop before the notice, so below it the count is exact (R180). -/
theorem saturateErr_exact {c : Config} (h : c.wf) (n : Nat) :
    saturateErr c n = n ∨ (noticeAt ≤ saturateErr c n ∧ noticeAt < n) := by
  obtain ⟨-, -, hmax⟩ := h
  cases hm : c.errMax with
  | none => exact .inl (saturateErr_of_none hm n)
  | some m =>
    have : noticeAt ≤ m := hmax m hm
    rw [saturateErr_of_some hm]
    simp only [noticeAt] at *
    omega

theorem errAfter_le {n : Nat} (h : ∀ m ∈ s.cfg.errMax, n ≤ m) :
    ∀ m ∈ s.cfg.errMax, errAfter s n ≤ m := by
  unfold errAfter
  split
  · exact saturateErr_le _
  · exact h

/-- A write never lowers a counter that is within its maximum. -/
theorem le_errAfter {n : Nat} (h : ∀ m ∈ s.cfg.errMax, n ≤ m) : n ≤ errAfter s n := by
  unfold errAfter
  split
  · cases hm : s.cfg.errMax with
    | none => rw [saturateErr_of_none hm]; omega
    | some m =>
      have := h m hm
      rw [saturateErr_of_some hm]
      omega
  · exact le_rfl

/-! ### The register invariant -/

theorem State.Inv.setBuf {m : Memory} (h : s.Inv) (hm : m.wf) (hlen : s.buf.len ≤ m.len)
    (hfits : fitsCap s.cfg m.len = true) : (s.setBuf m).Inv := by
  obtain ⟨-, hwindow, -, hfont, herr, hcfg⟩ := h
  exact ⟨hm, hwindow.setBuf hlen, hfits, hfont, herr, hcfg⟩

/-- A run of columns keeps the invariant when its last column is within the capacity. -/
theorem State.Inv.setCols {x : Nat} {cols : List Byte} (h : s.Inv)
    (hfits : cols ≠ [] → fitsCap s.cfg (x + cols.length) = true) :
    (s.setBuf (s.buf.setCols x cols)).Inv := by
  have ⟨hbuf, _, hcap, _⟩ := h
  refine h.setBuf (Memory.wf_setCols hbuf x cols) (Memory.le_len_setCols ..) ?_
  rw [Memory.len_setCols]
  split
  case isTrue => exact hcap
  case isFalse hne => exact fitsCap_max hcap (hfits hne)

theorem State.Inv.setOff {o : Nat} (h : s.Inv) (ho : o < s.buf.len) : (s.setOff o).Inv := by
  obtain ⟨hbuf, hwindow, hcap, hfont, herr, hcfg⟩ := h
  exact ⟨hbuf, ⟨hwindow.1, ho⟩, hcap, hfont, herr, hcfg⟩

theorem State.Inv.setOff_floorMod (h : s.Inv) (a : Int) :
    (s.setOff (floorMod a s.buf.len)).Inv := by
  have ⟨_, hwindow, _⟩ := h
  exact h.setOff (hwindow.setOff_floorMod a).2

/-- A buffer replaced as a whole, with an offset inside it. -/
theorem State.Inv.replaceBuf {m : Memory} {o : Nat} (h : s.Inv) (hm : m.wf) (hlen : 11 ≤ m.len)
    (hfits : fitsCap s.cfg m.len = true) (ho : o < m.len) : ((s.setBuf m).setOff o).Inv := by
  obtain ⟨-, -, -, hfont, herr, hcfg⟩ := h
  exact ⟨hm, ⟨hlen, ho⟩, hfits, hfont, herr, hcfg⟩

theorem State.Inv.setFont {f : Font} (h : s.Inv) (hf : fontOrdered f) : (s.setFont f).Inv := by
  obtain ⟨hbuf, hwindow, hcap, -, herr, hcfg⟩ := h
  exact ⟨hbuf, hwindow, hcap, hf, herr, hcfg⟩

theorem State.Inv.opened (h : s.Inv) : s.opened.Inv := by
  obtain ⟨-, -, -, hfont, -, hcfg⟩ := h
  have hwindow : s.opened.windowDefined := ⟨le_rfl, Nat.zero_lt_succ _⟩
  exact ⟨Memory.wf_blank, hwindow, fitsCap_minLen hcfg, hfont, fun _ _ => Nat.zero_le _, hcfg⟩

theorem State.Inv.afterWrite (h : s.Inv) (reg : BusReg) (bytes : List Byte) :
    (s.afterWrite reg bytes).Inv := by
  obtain ⟨hbuf, hwindow, hcap, hfont, herr, hcfg⟩ := h
  rw [State.afterWrite_eq]
  exact ⟨hbuf, hwindow, hcap, hfont, errAfter_le herr, hcfg⟩

/-- The register changes of a command that completes: the refusals it has passed give the capacity and
SETBUF's least length. -/
theorem State.Inv.beforeWrite (hs : s.Inv) (h : exec i s = .next t) : (s.beforeWrite i).Inv := by
  cases i with
  | init => exact hs.opened
  | wrstr text x =>
    obtain ⟨-, hfits, -⟩ := exec_wrstr_eq_next.1 h
    refine hs.setCols fun hne => ?_
    have htext : text ≠ [] := fun e => hne (flatMap_charColumns_eq_nil.2 e)
    rw [length_flatMap_charColumns]
    simpa [textNeeds, htext] using hfits
  | graph values low high =>
    obtain ⟨-, hfits, -⟩ := exec_graph_eq_next.1 h
    refine hs.setCols fun _ => ?_
    rwa [length_graphColumns, Nat.zero_add]
  | setcol x v =>
    obtain ⟨hfits, -⟩ := exec_setcol_eq_next.1 h
    exact hs.setCols (cols := [v]) fun _ => hfits
  | setpix x y v =>
    obtain ⟨hfits, -⟩ := exec_setpix_eq_next.1 h
    exact hs.setCols (cols := [pixelColumn (s.buf.read x) y v]) fun _ => hfits
  | setbuf cols =>
    obtain ⟨hlen, hfits, -⟩ := exec_setbuf_eq_next.1 h
    exact hs.replaceBuf (Memory.wf_ofColumns cols) hlen hfits (floorMod_lt _ (by omega))
  | clear =>
    have ⟨_, _, _, _, _, hcfg⟩ := hs
    exact hs.replaceBuf Memory.wf_blank le_rfl (fitsCap_minLen hcfg) (by decide)
  | scroll d => exact hs.setOff_floorMod _
  | scrollto p => exact hs.setOff_floorMod p
  | loadfont f => exact hs.setFont (fontOrdered_fontOfEntries f)
  | setmode m | setbrt b | update | buflen | ioerr | setrot b => exact hs

/-- Settles O12: the register changes keep the invariant, and so does the bus write after them. -/
theorem stepKeepsRegisterInvariant : Obligations.StepKeepsRegisterInvariant := by
  intro s t hs hstep
  refine step_next_of_exec (P := State.Inv) id (fun i haccept h => ?_) hs hstep
  exact exec_next_of_beforeWrite (fun _ reg bytes hu => hu.afterWrite reg bytes)
    (haccept.beforeWrite h) h

/-! ### The error accounting -/

theorem failsSinceOpen_writeEvents (trace : List Event) (s : State) (old : Nat) (reg : BusReg)
    (bytes : List Byte) :
    failsSinceOpen (trace ++ writeEvents s old reg bytes)
      = failsSinceOpen trace + (if s.nextAnswer = .fail then 1 else 0) := by
  unfold failsSinceOpen writeEvents
  rw [List.foldl_append]
  cases s.nextAnswer with
  | ok => simp [failStep]
  | fail => by_cases hold : old = 9 <;> simp [failStep, hold]

theorem noticesSinceOpen_writeEvents (trace : List Event) (s : State) (old : Nat) (reg : BusReg)
    (bytes : List Byte) :
    noticesSinceOpen (trace ++ writeEvents s old reg bytes)
      = noticesSinceOpen trace + (if s.nextAnswer = .fail ∧ old = 9 then 1 else 0) := by
  unfold noticesSinceOpen writeEvents
  rw [List.foldl_append]
  split <;> simp [noticeStep]

theorem any_isOpened_writeEvents (s : State) (old : Nat) (reg : BusReg) (bytes : List Byte) :
    (writeEvents s old reg bytes).any Event.isOpened = false := by
  unfold writeEvents
  split <;> simp [Event.isOpened]

/-- One write keeps the accounting: a failure is one more in the trace and in `ERR`, and it passes the
notice's count exactly when `ERR` was 9. -/
theorem State.Accounted.afterWrite (hcfg : s.cfg.wf) (h : s.Accounted) (reg : BusReg)
    (bytes : List Byte) : (s.afterWrite reg bytes).Accounted := by
  obtain ⟨herr, hnotices, hopen⟩ := h
  refine ⟨?err, ?notices, ?busOpen⟩
  case err =>
    rw [afterWrite_err, afterWrite_cfg, afterWrite_trace, failsSinceOpen_writeEvents, errAfter]
    split
    · rw [herr, saturateErr_succ]
    · exact herr
  case notices =>
    rw [afterWrite_err, afterWrite_trace, noticesSinceOpen_writeEvents, hnotices, errAfter]
    by_cases hfail : s.nextAnswer = .fail
    · have hsucc := saturateErr_exact hcfg (s.err + 1)
      simp only [hfail, if_true, true_and, noticeAt] at *
      split_ifs <;> omega
    · simp [hfail]
  case busOpen =>
    rw [afterWrite_busOpen, afterWrite_trace, List.any_append, any_isOpened_writeEvents,
      Bool.or_false]
    exact hopen

/-- INIT starts the count anew, whatever it was. -/
theorem State.accounted_opened (s : State) : s.opened.Accounted := by
  refine ⟨?err, ?notices, ?busOpen⟩
  case err => simp [failsSinceOpen, failStep, saturateErr_zero]
  case notices => simp [noticesSinceOpen, noticeStep]
  case busOpen => simp [Event.isOpened]

theorem failsSinceOpen_resp (trace : List Event) (v : Nat) :
    failsSinceOpen (trace ++ [.resp v]) = failsSinceOpen trace :=
  List.foldl_append

theorem noticesSinceOpen_resp (trace : List Event) (v : Nat) :
    noticesSinceOpen (trace ++ [.resp v]) = noticesSinceOpen trace :=
  List.foldl_append

theorem State.Accounted.respond (h : s.Accounted) (v : Nat) : (s.respond v).Accounted := by
  obtain ⟨herr, hnotices, hopen⟩ := h
  refine ⟨?err, ?notices, ?busOpen⟩
  case err => exact herr.trans (congrArg _ (failsSinceOpen_resp s.trace v).symm)
  case notices => exact (noticesSinceOpen_resp s.trace v).trans hnotices
  case busOpen => simpa [State.respond, Event.isOpened] using hopen

theorem State.Accounted.beforeWrite (h : s.Accounted) (i : Instr) : (s.beforeWrite i).Accounted := by
  cases i with
  | init => exact s.accounted_opened
  | buflen | ioerr => exact h.respond _
  | _ => exact h

theorem beforeWrite_cfg (s : State) (i : Instr) : (s.beforeWrite i).cfg = s.cfg := by
  cases i <;> rfl

/-- The accounting under legal parameters: what a bus write keeps (R180). -/
def State.AccountedLegally (s : State) : Prop := s.cfg.wf ∧ s.Accounted

theorem State.AccountedLegally.afterWrite (h : s.AccountedLegally) (reg : BusReg)
    (bytes : List Byte) : (s.afterWrite reg bytes).AccountedLegally := by
  obtain ⟨hcfg, hs⟩ := h
  exact ⟨by rwa [afterWrite_cfg], hs.afterWrite hcfg reg bytes⟩

theorem State.AccountedLegally.beforeWrite (h : s.AccountedLegally) (i : Instr) :
    (s.beforeWrite i).AccountedLegally := by
  obtain ⟨hcfg, hs⟩ := h
  exact ⟨by rwa [beforeWrite_cfg], hs.beforeWrite i⟩

/-- Settles O13: the register changes keep the accounting, and so does the bus write after them. -/
theorem stepKeepsErrorAccounting : Obligations.StepKeepsErrorAccounting := by
  intro s t hcfg hs hstep
  have ht : t.AccountedLegally := by
    refine step_next_of_exec (P := State.AccountedLegally) id (fun i haccept h => ?_)
      ⟨hcfg, hs⟩ hstep
    exact exec_next_of_beforeWrite (fun _ reg bytes hu => hu.afterWrite reg bytes)
      (haccept.beforeWrite i) h
  exact ht.2

/-! ### The writers of each register -/

theorem beforeWrite_rot (hi : i.op ∉ [Op.setrot, Op.init]) : (s.beforeWrite i).rot = s.rot := by
  cases i with
  | setrot r | init => simp [Instr.op] at hi
  | _ => rfl

theorem beforeWrite_font (hi : i.op ≠ Op.loadfont) : (s.beforeWrite i).font = s.font := by
  cases i with
  | loadfont f => simp [Instr.op] at hi
  | _ => rfl

theorem beforeWrite_busOpen (s : State) (i : Instr) :
    (s.beforeWrite i).busOpen = s.busOpen
      ∨ i.op = Op.init ∧ (s.beforeWrite i).busOpen = true := by
  cases i with
  | init => exact .inr ⟨rfl, rfl⟩
  | _ => exact .inl rfl

theorem beforeWrite_err (hi : i.op ≠ Op.init) : (s.beforeWrite i).err = s.err := by
  cases i with
  | init => simp [Instr.op] at hi
  | _ => rfl

theorem beforeWrite_off (hi : i.op ∉ [Op.scroll, Op.scrollto, Op.clear, Op.setbuf, Op.init]) :
    (s.beforeWrite i).off = s.off := by
  cases i with
  | scroll d | scrollto p | clear | setbuf cols | init => simp [Instr.op] at hi
  | _ => rfl

theorem beforeWrite_buf (hi : i.op ∉ [Op.setcol, Op.setpix, Op.clear, Op.setbuf, Op.wrstr, Op.graph,
    Op.init]) : (s.beforeWrite i).buf = s.buf := by
  cases i with
  | setcol x v | setpix x y v | clear | setbuf cols | wrstr text x | graph values low high | init =>
    simp [Instr.op] at hi
  | _ => rfl

theorem le_len_beforeWrite (hi : i.op ∉ [Op.clear, Op.setbuf, Op.init]) :
    s.buf.len ≤ (s.beforeWrite i).buf.len := by
  cases i with
  | clear | setbuf cols | init => simp [Instr.op] at hi
  | setcol x v | setpix x y v => exact Nat.le_max_left ..
  | wrstr text x | graph values low high => exact Memory.le_len_setCols ..
  | _ => exact le_rfl

/-- The eight bus-writing commands (R188). -/
theorem op_of_busRegOf {reg : BusReg} (h : busRegOf i = some reg) :
    i.op ∈ [Op.init, Op.setmode, Op.setbrt, Op.scroll, Op.scrollto, Op.wrstr, Op.graph,
      Op.update] := by
  cases i <;> simp [busRegOf, Instr.op] at h ⊢

/-- The registers other than `ERR` are as the command left them before its bus write (R181). -/
theorem exec_next_registers (h : exec i s = .next t) :
    t.rot = (s.beforeWrite i).rot ∧ t.font = (s.beforeWrite i).font
      ∧ t.busOpen = (s.beforeWrite i).busOpen ∧ t.off = (s.beforeWrite i).off
      ∧ t.buf = (s.beforeWrite i).buf := by
  obtain ⟨-, rfl⟩ | ⟨reg, -, rfl⟩ := exec_next_cases h <;> simp

theorem exec_next_err_of_not_mem (h : exec i s = .next t) (hi : i.op ∉ [Op.init, Op.setmode,
    Op.setbrt, Op.scroll, Op.scrollto, Op.wrstr, Op.graph, Op.update]) : t.err = s.err := by
  obtain ⟨-, rfl⟩ | ⟨reg, hreg, -⟩ := exec_next_cases h
  · exact beforeWrite_err (List.ne_of_not_mem_cons hi)
  · exact absurd (op_of_busRegOf hreg) hi

theorem le_err_of_exec_next (hmax : ∀ m ∈ s.cfg.errMax, s.err ≤ m) (h : exec i s = .next t)
    (hi : i.op ≠ Op.init) : s.err ≤ t.err := by
  have herr := beforeWrite_err (s := s) hi
  obtain ⟨-, rfl⟩ | ⟨reg, -, rfl⟩ := exec_next_cases h
  · exact herr.ge
  · rw [State.afterWrite_err, herr]
    exact le_errAfter (by rwa [beforeWrite_cfg])

/-- Settles O16: a bus write changes no register but `ERR`, which it does not lower; the others change
before it or not at all. -/
theorem writersOfRegisters : Obligations.WritersOfRegisters := by
  intro i s t hmax h
  obtain ⟨hrot, hfont, hopen, hoff, hbuf⟩ := exec_next_registers h
  refine ⟨?rot, ?font, ?busOpen, ?off, ?buf, ?len, ?err, ?errLowered⟩
  case rot => exact not_imp_comm.1 fun hi => hrot.trans (beforeWrite_rot hi)
  case font => exact not_imp_comm.1 fun hi => hfont.trans (beforeWrite_font hi)
  case busOpen =>
    rw [hopen]
    exact (beforeWrite_busOpen s i).resolve_left
  case off => exact not_imp_comm.1 fun hi => hoff.trans (beforeWrite_off hi)
  case buf => exact not_imp_comm.1 fun hi => hbuf.trans (beforeWrite_buf hi)
  case len =>
    rw [hbuf]
    exact fun hlt => by_contra fun hi => hlt.not_ge (le_len_beforeWrite hi)
  case err => exact not_imp_comm.1 (exec_next_err_of_not_mem h)
  case errLowered => exact fun hlt => by_contra fun hi => hlt.not_ge (le_err_of_exec_next hmax h hi)

end Sys2Proof.Machine
end

section
/-! PROOFS. Scope: the column memory's growth and capacity (spec/20_memory.md R52, R63) and the bus
events the block may produce (20_memory.md R58, 30_encoding.md R89 to R91). -/

namespace Sys2Proof.Machine

variable {s t : State} {i : Instr}

/-! ### Legal traffic -/

/-- Legal traffic stays legal under the same parameters when only legal events are appended. -/
theorem State.TrafficLegal.append {new : List Event} (h : s.TrafficLegal) (hcfg : t.cfg = s.cfg)
    (htrace : t.trace = s.trace ++ new) (hnew : ∀ e ∈ new, eventLegal s.cfg e) :
    t.TrafficLegal := by
  unfold State.TrafficLegal
  rw [hcfg, htrace]
  exact List.forall_mem_append.2 ⟨h, hnew⟩

/-- The events of one write are the write itself and perhaps a notice, so its payload decides. -/
theorem eventLegal_of_mem_writeEvents {old : Nat} {reg : BusReg} {bytes : List Byte}
    (hpayload : payloadLegal s.cfg (regNumber s.cfg reg) bytes) :
    ∀ e ∈ writeEvents s old reg bytes, eventLegal s.cfg e := by
  refine List.forall_mem_cons.2 ⟨⟨rfl, hpayload⟩, ?_⟩
  split <;> simp [eventLegal]

theorem State.TrafficLegal.afterWrite {reg : BusReg} {bytes : List Byte} (h : s.TrafficLegal)
    (hpayload : payloadLegal s.cfg (regNumber s.cfg reg) bytes) :
    (s.afterWrite reg bytes).TrafficLegal :=
  h.append (afterWrite_cfg s reg bytes) (afterWrite_trace s reg bytes)
    (eventLegal_of_mem_writeEvents hpayload)

/-- Before its bus write a command appends an `Open` of the configured channel, a response or
nothing. -/
theorem State.TrafficLegal.beforeWrite (h : s.TrafficLegal) (i : Instr) :
    (s.beforeWrite i).TrafficLegal := by
  cases i with
  | init => exact h.append s.opened_cfg s.opened_trace (List.forall_mem_singleton.2 rfl)
  | buflen | ioerr => exact h.append rfl rfl (List.forall_mem_singleton.2 trivial)
  | _ => exact h

/-- A command that pushes completes only where the window of the pushed state is defined (R130). -/
theorem windowDefined_beforeWrite_of_draw (h : exec i s = .next t)
    (hdraw : busRegOf i = some .draw) : (s.beforeWrite i).windowDefined := by
  cases i with
  | wrstr text x =>
    obtain ⟨-, -, hwindow, -⟩ := exec_wrstr_eq_next.1 h
    exact hwindow
  | graph values low high =>
    obtain ⟨-, -, hwindow, -⟩ := exec_graph_eq_next.1 h
    exact hwindow
  | scroll d =>
    obtain ⟨-, hwindow, -⟩ := exec_scroll_eq_next.1 h
    exact hwindow
  | scrollto p =>
    obtain ⟨-, hwindow, -⟩ := exec_scrollto_eq_next.1 h
    exact hwindow
  | update =>
    obtain ⟨-, hwindow, -⟩ := exec_update_eq_next.1 h
    exact hwindow
  | _ => cases hdraw

/-- Each bus-writing command's payload is one its register takes (R89, R90); a frame has its 12 bytes
only where the window is defined. -/
theorem payloadLegal_payloadOf {reg : BusReg} (hreg : busRegOf i = some reg)
    (hwindow : reg = .draw → s.windowDefined) :
    payloadLegal s.cfg (regNumber s.cfg reg) (payloadOf i s) := by
  cases i with
  | init | setmode m =>
    cases hreg
    exact .inl ⟨rfl, rfl⟩
  | setbrt b =>
    cases hreg
    exact .inr (.inl ⟨rfl, rfl⟩)
  | wrstr text x | graph values low high | scroll d | scrollto p | update =>
    cases hreg
    exact .inr (.inr ⟨rfl, length_frame (hwindow rfl), frame_last (hwindow rfl)⟩)
  | _ => cases hreg

theorem exec_keeps_trafficLegal (hs : s.TrafficLegal) (h : exec i s = .next t) :
    t.TrafficLegal := by
  have hbefore := hs.beforeWrite i
  obtain ⟨-, rfl⟩ | ⟨reg, hreg, rfl⟩ := exec_next_cases h
  · exact hbefore
  · refine hbefore.afterWrite (payloadLegal_payloadOf hreg ?_)
    rintro rfl
    exact windowDefined_beforeWrite_of_draw h hreg

/-- Settles O14: a command appends legal events before its bus write, and its bus write is legal. -/
theorem stepKeepsTrafficLegal : Obligations.StepKeepsTrafficLegal :=
  fun _ _ => step_next_of_exec id fun _ => exec_keeps_trafficLegal

/-! ### Growth -/

theorem Memory.slice_add (m : Memory) (i a b : Nat) :
    m.slice i (a + b) = m.slice i a ++ m.slice (i + a) b := by
  simp only [Memory.slice, ← List.map_append, List.range'_append_1]

/-- A slice from the length on is zeros. -/
theorem Memory.slice_of_ge {m : Memory} (h : m.wf) {i : Nat} (hi : m.len ≤ i) (n : Nat) :
    m.slice i n = List.replicate n 0 := by
  refine List.eq_replicate_iff.2 ⟨m.length_slice i n, List.forall_mem_map.2 fun j hj => ?_⟩
  exact Memory.read_of_ge h (hi.trans (List.mem_range'_1.1 hj).1)

/-- Settles O24: the grown columns are one slice, cut at the old length. -/
theorem growAppendsZeroColumns : Obligations.GrowAppendsZeroColumns := by
  intro m x h
  have hlen : (m.grow x).len = m.len + (x + 1 - m.len) := by
    rw [Memory.len_grow]
    omega
  refine ⟨m.len_grow x, ?_⟩
  calc (m.grow x).columns
    _ = m.slice 0 (m.len + (x + 1 - m.len)) := congrArg (m.slice 0) hlen
    _ = m.columns ++ m.slice (0 + m.len) (x + 1 - m.len) := m.slice_add 0 _ _
    _ = m.columns ++ List.replicate (x + 1 - m.len) 0 := by
      rw [Memory.slice_of_ge h (Nat.zero_add _).ge]

/-! ### Capacity -/

/-- Under a finite `BUF_CAP` a length beyond it does not fit (R63). -/
theorem fitsCap_eq_false {c : Config} {cap n : Nat} (hcap : c.bufCap = some cap) (hn : cap < n) :
    fitsCap c n = false := by
  simp [fitsCap, hcap, hn]

theorem whenFits_of_cap_lt {cap n : Nat} (hcap : s.cfg.bufCap = some cap) (hn : cap < n)
    (o : Outcome) : whenFits s n o = .refused .capacity :=
  whenFits_of_not (fitsCap_eq_false hcap hn) o

theorem textNeeds_of_ne_nil {text : List Nat} (h : text ≠ []) (s : State) (x : Nat) :
    textNeeds s text x = x + textWidth s.cfg.spaceCode s.font text := by
  simp [textNeeds, h]

/-- Settles O19: each command tests the length it asks for before anything changes; SETBUF is past
`short_buffer` and the bus writers past `bus_not_open`. -/
theorem capacityRefusals : Obligations.CapacityRefusals := by
  intro s cap hcap
  refine ⟨?setcol, ?setpix, ?setbuf, fun hopen => ⟨?wrstr, ?graph⟩⟩
  case setcol => exact fun x v hx => whenFits_of_cap_lt hcap (Nat.lt_succ_of_le hx) _
  case setpix => exact fun x y v hx => whenFits_of_cap_lt hcap (Nat.lt_succ_of_le hx) _
  case setbuf =>
    exact fun cols hlen hn => (if_neg hlen.not_gt).trans (whenFits_of_cap_lt hcap hn _)
  case wrstr =>
    intro text x htext hn
    rw [← textNeeds_of_ne_nil htext] at hn
    exact (whenOpen_of_open hopen _).trans (whenFits_of_cap_lt hcap hn _)
  case graph =>
    exact fun values low high hn =>
      (whenOpen_of_open hopen _).trans (whenFits_of_cap_lt hcap hn _)

end Sys2Proof.Machine
end

section
/-! PROOFS. Scope: the fields of a packet, written and read (spec/30_encoding.md R82, R83), and the
operands a packet can carry. -/

namespace Sys2Proof.Machine

/-! ### Fields -/

theorem fitsU32_iff {v : Nat} : fitsU32 v = true ↔ v < 2 ^ 32 := decide_eq_true_iff

theorem fitsU32_u32 (b0 b1 b2 b3 : Byte) : fitsU32 (u32 b0 b1 b2 b3) = true :=
  fitsU32_iff.2 (u32_lt b0 b1 b2 b3)

theorem s32Bytes_s32 (b0 b1 b2 b3 : Byte) : s32Bytes (s32 b0 b1 b2 b3) = [b0, b1, b2, b3] := by
  rw [s32Bytes, s32, sext32_toNat (u32_lt b0 b1 b2 b3), u32Bytes_u32]

theorem fitsS32_s32 (b0 b1 b2 b3 : Byte) : fitsS32 (s32 b0 b1 b2 b3) = true :=
  fitsS32_sext32 (u32_lt b0 b1 b2 b3)

/-- A value in range is what four bytes read as. -/
theorem exists_u32_eq {v : Nat} (h : fitsU32 v = true) : ∃ b0 b1 b2 b3, v = u32 b0 b1 b2 b3 :=
  ⟨_, _, _, _, (u32_bytes (fitsU32_iff.1 h)).symm⟩

/-- Four bytes at the head are a field in range. -/
theorem exists_field {p : List Byte} (h : 4 ≤ p.length) :
    ∃ v rest, fitsU32 v = true ∧ p = u32Bytes v ++ rest := by
  match p, h with
  | b0 :: b1 :: b2 :: b3 :: rest, _ =>
    exact ⟨u32 b0 b1 b2 b3, rest, fitsU32_u32 .., by simp [u32Bytes_u32]⟩

theorem exists_signedField {p : List Byte} (h : p.length = 4) :
    ∃ d, fitsS32 d = true ∧ p = s32Bytes d := by
  match p, h with
  | [b0, b1, b2, b3], _ => exact ⟨_, fitsS32_s32 b0 b1 b2 b3, (s32Bytes_s32 ..).symm⟩

/-! ### Groups of fields -/

theorem u32s_flatMap {vs : List Nat} (h : ∀ v ∈ vs, fitsU32 v = true) :
    u32s (vs.flatMap u32Bytes) = vs := by
  induction vs with
  | nil => rfl
  | cons v vs ih =>
    obtain ⟨hv, hvs⟩ := List.forall_mem_cons.1 h
    rw [List.flatMap_cons, u32s_u32Bytes_append (fitsU32_iff.1 hv), ih hvs]

theorem length_flatMap_u32Bytes (vs : List Nat) : (vs.flatMap u32Bytes).length = 4 * vs.length := by
  induction vs with
  | nil => rfl
  | cons v vs ih => simp [ih]; omega

/-- `4 * n` bytes are `n` fields in range. -/
theorem exists_fields {n : Nat} {p : List Byte} (h : p.length = 4 * n) :
    ∃ vs : List Nat, vs.length = n ∧ (∀ v ∈ vs, fitsU32 v = true) ∧ p = vs.flatMap u32Bytes := by
  induction n generalizing p with
  | zero => exact ⟨[], rfl, by simp, List.length_eq_zero_iff.1 h⟩
  | succ n ih =>
    obtain ⟨v, rest, hv, rfl⟩ := exists_field (p := p) (by omega)
    obtain ⟨vs, rfl, hvs, rfl⟩ := ih (p := rest) (by simp at h; omega)
    exact ⟨v :: vs, rfl, List.forall_mem_cons.2 ⟨hv, hvs⟩, rfl⟩

/-! ### Well-formed commands -/

theorem wellFormed_wrstr {text : List Nat} {x : Nat} : (Instr.wrstr text x).wellFormed = true
    ↔ fitsU32 x = true ∧ fitsU32 text.length = true ∧ ∀ c ∈ text, fitsU32 c = true := by
  simp [Instr.wellFormed, and_assoc]

theorem wellFormed_graph {values : List Rat} {low high : Option Rat} :
    (Instr.graph values low high).wellFormed = true
      ↔ fitsU32 values.length = true ∧ (∀ q ∈ values, fitsSample q = true)
        ∧ low.all fitsSample = true ∧ high.all fitsSample = true := by
  simp [Instr.wellFormed, and_assoc]

theorem wellFormed_setbuf {cols : List Byte} :
    (Instr.setbuf cols).wellFormed = true ↔ minLen ≤ cols.length ∧ fitsU32 cols.length = true := by
  simp [Instr.wellFormed]

theorem wellFormed_loadfont {f : Font} : (Instr.loadfont f).wellFormed = true
    ↔ fitsU32 f.length = true ∧ (∀ e ∈ f, fitsEntry e = true) ∧ fontOrdered f := by
  simp only [Instr.wellFormed, Bool.and_eq_true, List.all_eq_true, decide_eq_true_eq, and_assoc]

/-! ### Samples and bounds -/

theorem fitsSample_sampleOf {n : Nat} (h : fitsU32 n = true) : fitsSample (sampleOf n) = true := by
  simp [fitsSample, sampleOf, fitsS32_sext32 (fitsU32_iff.1 h)]

theorem s32Bytes_num_sampleOf {n : Nat} (h : fitsU32 n = true) :
    s32Bytes (sampleOf n).num = u32Bytes n := by
  rw [s32Bytes, sampleOf, Rat.num_intCast, sext32_toNat (fitsU32_iff.1 h)]

theorem sampleOf_num {q : Rat} (h : fitsSample q = true) : sampleOf (q.num % 2 ^ 32).toNat = q := by
  simp only [fitsSample, Bool.and_eq_true, decide_eq_true_eq] at h
  obtain ⟨hden, hnum⟩ := h
  rw [sampleOf, sext32_emod hnum, Rat.den_eq_one_iff _ |>.1 hden]

theorem fitsU32_emod (v : Int) : fitsU32 (v % 2 ^ 32).toNat = true := fitsU32_iff.2 (toNat_emod_lt v)

theorem all_boundOf {l : Nat} (auto : Bool) (h : fitsU32 l = true) :
    (boundOf auto l).all fitsSample = true := by
  cases auto
  · exact fitsSample_sampleOf h
  · rfl

theorem isNone_boundOf (auto : Bool) (l : Nat) : (boundOf auto l).isNone = auto := by
  cases auto <;> rfl

theorem boundFlag_boundOf (auto : Bool) (l : Nat) : boundFlag (boundOf auto l) = auto.toNat := by
  cases auto <;> rfl

/-- The flags byte made of two flags has them as bits 0 and 1 and no other bit. -/
theorem bits_flags (a b : Bool) :
    (BitVec.ofNat 8 (a.toNat + 2 * b.toNat)).getLsbD 0 = a
      ∧ (BitVec.ofNat 8 (a.toNat + 2 * b.toNat)).getLsbD 1 = b
      ∧ (BitVec.ofNat 8 (a.toNat + 2 * b.toNat)).toNat < 4 := by
  revert a b; decide

theorem flags_eq_of_lt {flags : Byte} (h : flags.toNat < 4) :
    flags = BitVec.ofNat 8 ((flags.getLsbD 0).toNat + 2 * (flags.getLsbD 1).toNat) := by
  revert flags; decide

/-- The samples of a packet and the fields they stand in. -/
theorem exists_samples_iff {values : List Rat} {p : List Byte} :
    (∃ ns : List Nat, (∀ n ∈ ns, fitsU32 n = true) ∧ values = ns.map sampleOf ∧ p = ns.flatMap u32Bytes)
      ↔ (∀ q ∈ values, fitsSample q = true) ∧ p = values.flatMap fun q => s32Bytes q.num := by
  constructor
  · rintro ⟨ns, hns, rfl, rfl⟩
    refine ⟨by simpa using fun n hn => fitsSample_sampleOf (hns n hn), ?_⟩
    rw [List.flatMap_map]
    exact List.flatMap_congr fun n hn => (s32Bytes_num_sampleOf (hns n hn)).symm
  · rintro ⟨hfits, rfl⟩
    refine ⟨values.map fun q => (q.num % 2 ^ 32).toNat,
      List.forall_mem_map.2 fun q _ => fitsU32_emod q.num, ?_, ?_⟩
    · rw [List.map_map]
      calc values = values.map id := (List.map_id _).symm
        _ = _ := List.map_congr_left fun q hq => (sampleOf_num (hfits q hq)).symm
    · rw [List.flatMap_map]; rfl

/-! ### Font entries -/

theorem fitsEntry_iff {e : Nat × Glyph} :
    fitsEntry e = true ↔ fitsU32 e.1 = true ∧ e.2.length < 256 := by
  simp [fitsEntry]

theorem toNat_width {g : Glyph} (h : g.length < 256) : (BitVec.ofNat 8 g.length).toNat = g.length := by
  simpa using h

/-- An entry at the head of the bytes is taken off whole. -/
theorem takeEntries_entryBytes {e : Nat × Glyph} (he : fitsEntry e = true) (k : Nat) (p : List Byte) :
    takeEntries (k + 1) (entryBytes e ++ p) = (takeEntries k p).map fun r => (e :: r.1, r.2) := by
  obtain ⟨hcode, hwidth⟩ := fitsEntry_iff.1 he
  have hle : (BitVec.ofNat 8 e.2.length).toNat ≤ (e.2 ++ p).length := by simp [toNat_width hwidth]
  simp only [entryBytes, u32Bytes, List.cons_append, List.nil_append, takeEntries]
  rw [if_pos hle, u32_bytes (fitsU32_iff.1 hcode), toNat_width hwidth, List.drop_left, List.take_left]

/-- An entry's five bytes and its columns at the head of the bytes are an entry that fits. -/
theorem exists_entry {p : List Byte} (h : 5 + (byteAt p 4).toNat ≤ p.length) :
    ∃ e rest, fitsEntry e = true ∧ p = entryBytes e ++ rest := by
  obtain ⟨c, tail, hc, rfl⟩ := exists_field (p := p) (by omega)
  obtain _ | ⟨w, tail⟩ := tail
  · rw [List.append_nil, length_u32Bytes] at h
    omega
  · have hw : w.toNat ≤ tail.length := by
      change 5 + w.toNat ≤ (u32Bytes c ++ w :: tail).length at h
      simp at h
      omega
    have hlen : (tail.take w.toNat).length = w.toNat := List.length_take_of_le hw
    have hfits : (tail.take w.toNat).length < 256 := hlen.trans_lt w.isLt
    refine ⟨(c, tail.take w.toNat), tail.drop w.toNat, fitsEntry_iff.2 ⟨hc, hfits⟩, ?_⟩
    simp [entryBytes, hlen]

theorem length_of_takeEntries_succ {k : Nat} {p : List Byte} {r : Font × List Byte}
    (h : takeEntries (k + 1) p = some r) : 5 + (byteAt p 4).toNat ≤ p.length := by
  match p, h with
  | c0 :: c1 :: c2 :: c3 :: w :: p, h =>
    rw [takeEntries] at h
    split at h
    case isTrue hw => simp [byteAt]; omega
    case isFalse => cases h

/-- `k` entries are taken exactly off the bytes of `k` entries that fit. -/
theorem takeEntries_eq_some_iff {k : Nat} {p rest : List Byte} {f : Font} :
    takeEntries k p = some (f, rest)
      ↔ f.length = k ∧ (∀ e ∈ f, fitsEntry e = true) ∧ p = f.flatMap entryBytes ++ rest := by
  induction k generalizing p f with
  | zero =>
    simp only [takeEntries, Option.some.injEq, Prod.mk.injEq, List.length_eq_zero_iff]
    constructor
    · rintro ⟨rfl, rfl⟩; simp
    · rintro ⟨rfl, -, rfl⟩; simp
  | succ k ih =>
    constructor
    · intro h
      obtain ⟨e, tail, he, rfl⟩ := exists_entry (length_of_takeEntries_succ h)
      rw [takeEntries_entryBytes he, Option.map_eq_some_iff] at h
      obtain ⟨⟨f, rest⟩, htake, hr⟩ := h
      cases hr
      obtain ⟨rfl, hf, rfl⟩ := ih.1 htake
      exact ⟨rfl, List.forall_mem_cons.2 ⟨he, hf⟩, by simp⟩
    · rintro ⟨hlen, hfits, rfl⟩
      obtain _ | ⟨e, f⟩ := f
      · cases hlen
      · obtain ⟨he, hf⟩ := List.forall_mem_cons.1 hfits
        rw [List.flatMap_cons, List.append_assoc, takeEntries_entryBytes he,
          ih.2 ⟨Nat.succ.inj hlen, hf, rfl⟩]
        rfl

end Sys2Proof.Machine
end

section
/-! PROOFS. Scope: the decoder, format by format (spec/30_encoding.md R83 to R85), and the commands it
reads. -/

namespace Sys2Proof.Machine

/-! ### The packets of a command -/

/-- A packet body: the bytes after the opcode that carry the command `i` (R83, R85). It is `encodeBody i`
but where R85 leaves a choice: any non-zero byte sets a pixel, and an automatic bound's field is any. -/
def PacketBody (i : Instr) (body : List Byte) : Prop :=
  match i with
  | .setpix x y v => ∃ w : Byte, v = (w != 0) ∧ body = u32Bytes x ++ [BitVec.ofNat 8 y.val, w]
  | .graph values low high => ∃ l h : Nat, fitsU32 l = true ∧ fitsU32 h = true
      ∧ low = boundOf low.isNone l ∧ high = boundOf high.isNone h
      ∧ body = [BitVec.ofNat 8 (boundFlag low + 2 * boundFlag high)] ++ u32Bytes l ++ u32Bytes h
          ++ u32Bytes values.length ++ values.flatMap fun q => s32Bytes q.num
  | i => body = encodeBody i

/-! ### One lemma per format: what its decoder reads, and from which bytes -/

theorem decodeF0_eq_ok_iff {i j : Instr} {body : List Byte} :
    decodeF0 i body = .ok j ↔ j = i ∧ body = [] := by
  cases body <;> simp [decodeF0, eq_comm]

theorem decodeFB_eq_ok_iff {f : Byte → Except PacketError Instr} {i : Instr} {body : List Byte} :
    decodeFB f body = .ok i ↔ ∃ a, f a = .ok i ∧ body = [a] := by
  constructor
  · intro h
    unfold decodeFB at h
    split at h
    case h_1 a => exact ⟨a, h, rfl⟩
    case h_2 => cases h
  · rintro ⟨a, h, rfl⟩
    exact h

theorem decodeRot_eq_ok_iff {a : Byte} {i : Instr} :
    decodeRot a = .ok i ↔ ∃ r : Bool, i = .setrot r ∧ a = if r then 1 else 0 := by
  constructor
  · intro h
    unfold decodeRot at h
    split at h
    case isTrue h0 => cases h; exact ⟨false, rfl, h0⟩
    case isFalse =>
      split at h
      case isTrue h1 => cases h; exact ⟨true, rfl, h1⟩
      case isFalse => cases h
  · rintro ⟨r, rfl, rfl⟩
    cases r <;> rfl

theorem decodeFW_eq_ok_iff {f : Int → Instr} {i : Instr} {body : List Byte} :
    decodeFW f body = .ok i ↔ ∃ d, i = f d ∧ fitsS32 d = true ∧ body = s32Bytes d := by
  constructor
  · intro h
    unfold decodeFW at h
    split at h <;> cases h
    exact ⟨_, rfl, fitsS32_s32 .., (s32Bytes_s32 ..).symm⟩
  · rintro ⟨d, rfl, hd, rfl⟩
    simp only [decodeFW, s32Bytes, u32Bytes, s32_bytes hd]

theorem decodeFXV_eq_ok_iff {i : Instr} {body : List Byte} :
    decodeFXV body = .ok i
      ↔ ∃ x v, i = .setcol x v ∧ fitsU32 x = true ∧ body = u32Bytes x ++ [v] := by
  constructor
  · intro h
    unfold decodeFXV at h
    split at h <;> cases h
    exact ⟨_, _, rfl, fitsU32_u32 .., by simp [u32Bytes_u32]⟩
  · rintro ⟨x, v, rfl, hx, rfl⟩
    obtain ⟨b0, b1, b2, b3, rfl⟩ := exists_u32_eq hx
    simp [u32Bytes_u32, decodeFXV]

theorem decodeFXYV_eq_ok_iff {i : Instr} {body : List Byte} :
    decodeFXYV body = .ok i ↔ ∃ x y v, i = .setpix x y v ∧ fitsU32 x = true
      ∧ PacketBody (.setpix x y v) body := by
  constructor
  · intro h
    unfold decodeFXYV at h
    split at h
    case h_1 x0 x1 x2 x3 y v =>
      split at h
      case isTrue hy =>
        cases h
        exact ⟨_, _, _, rfl, fitsU32_u32 .., v, rfl, by simp [u32Bytes_u32]⟩
      case isFalse => cases h
    case h_2 => cases h
  · rintro ⟨x, y, v, rfl, hx, w, rfl, rfl⟩
    obtain ⟨b0, b1, b2, b3, rfl⟩ := exists_u32_eq hx
    have hy : (BitVec.ofNat 8 y.val).toNat = y.val := by simp; omega
    simp [u32Bytes_u32, decodeFXYV, hy]

theorem decodeFBUF_eq_ok_iff {i : Instr} {body : List Byte} :
    decodeFBUF body = .ok i ↔ ∃ cols, i = .setbuf cols ∧ minLen ≤ cols.length
      ∧ fitsU32 cols.length = true ∧ body = u32Bytes cols.length ++ cols := by
  constructor
  · intro h
    unfold decodeFBUF at h
    split at h
    case h_1 n0 n1 n2 n3 cols =>
      split at h
      case isTrue => cases h
      case isFalse hn =>
        split at h <;> cases h
        exact ⟨cols, rfl, by omega, by
          rw [not_ne_iff.1 hn]; exact ⟨fitsU32_u32 .., by simp [u32Bytes_u32]⟩⟩
    case h_2 => cases h
  · rintro ⟨cols, rfl, hmin, hn, rfl⟩
    obtain ⟨n0, n1, n2, n3, hlen⟩ := exists_u32_eq hn
    rw [hlen, u32Bytes_u32]
    simp [decodeFBUF, hlen.symm, hmin]

theorem decodeFSTR_eq_ok_iff {i : Instr} {body : List Byte} :
    decodeFSTR body = .ok i ↔ ∃ text x, i = .wrstr text x ∧ (Instr.wrstr text x).wellFormed = true
      ∧ body = u32Bytes x ++ u32Bytes text.length ++ text.flatMap u32Bytes := by
  simp only [wellFormed_wrstr]
  constructor
  · intro h
    unfold decodeFSTR at h
    split at h
    case h_1 x0 x1 x2 x3 n0 n1 n2 n3 bytes =>
      split at h
      case isTrue => cases h
      case isFalse hn =>
        obtain ⟨text, hlen, htext, rfl⟩ := exists_fields (not_ne_iff.1 hn)
        rw [u32s_flatMap htext] at h
        cases h
        exact ⟨text, _, rfl, ⟨fitsU32_u32 .., hlen ▸ fitsU32_u32 .., htext⟩,
          by simp [hlen, u32Bytes_u32]⟩
    case h_2 => cases h
  · rintro ⟨text, x, rfl, ⟨hx, hn, htext⟩, rfl⟩
    obtain ⟨x0, x1, x2, x3, rfl⟩ := exists_u32_eq hx
    obtain ⟨n0, n1, n2, n3, hlen⟩ := exists_u32_eq hn
    simp [hlen, u32Bytes_u32, decodeFSTR, u32s_flatMap htext, mul_comm]

/-- The fields of `FGR`, whatever their values, carry the graph they read as. -/
theorem packetBody_graph {flags : Byte} {l h : Nat} {ns : List Nat} (hflags : flags.toNat < 4)
    (hl : fitsU32 l = true) (hh : fitsU32 h = true) (hn : fitsU32 ns.length = true)
    (hns : ∀ n ∈ ns, fitsU32 n = true) :
    (Instr.graph (ns.map sampleOf) (boundOf (flags.getLsbD 0) l)
        (boundOf (flags.getLsbD 1) h)).wellFormed = true
      ∧ PacketBody
        (.graph (ns.map sampleOf) (boundOf (flags.getLsbD 0) l) (boundOf (flags.getLsbD 1) h))
        (flags :: u32Bytes l ++ u32Bytes h ++ u32Bytes ns.length ++ ns.flatMap u32Bytes) := by
  obtain ⟨hvalues, hbytes⟩ := exists_samples_iff.1 ⟨ns, hns, rfl, rfl⟩
  constructor
  · rw [wellFormed_graph, List.length_map]
    exact ⟨hn, hvalues, all_boundOf _ hl, all_boundOf _ hh⟩
  · refine ⟨l, h, hl, hh, by rw [isNone_boundOf], by rw [isNone_boundOf], ?_⟩
    rw [hbytes, boundFlag_boundOf, boundFlag_boundOf, ← flags_eq_of_lt hflags, List.length_map]
    rfl

theorem decodeFGR_eq_ok_iff {i : Instr} {body : List Byte} :
    decodeFGR body = .ok i ↔ ∃ values low high, i = .graph values low high
      ∧ (Instr.graph values low high).wellFormed = true
      ∧ PacketBody (.graph values low high) body := by
  constructor
  · intro h
    unfold decodeFGR at h
    split at h
    case h_1 flags l0 l1 l2 l3 h0 h1 h2 h3 n0 n1 n2 n3 bytes =>
      split at h
      case isTrue => cases h
      case isFalse hn =>
        split at h
        case isTrue => cases h
        case isFalse hflags =>
          obtain ⟨ns, hlen, hns, rfl⟩ := exists_fields (not_ne_iff.1 hn)
          rw [u32s_flatMap hns] at h
          cases h
          refine ⟨_, _, _, rfl, ?_⟩
          have hbody := packetBody_graph (flags := flags) (by omega) (fitsU32_u32 l0 l1 l2 l3)
            (fitsU32_u32 h0 h1 h2 h3) (hlen ▸ fitsU32_u32 ..) hns
          simpa [hlen, u32Bytes_u32] using hbody
    case h_2 => cases h
  · rintro ⟨values, low, high, rfl, hwf, l, h, hl, hh, hlow, hhigh, rfl⟩
    obtain ⟨hn, hvalues, -⟩ := wellFormed_graph.1 hwf
    obtain ⟨ns, hns, rfl, hbytes⟩ := exists_samples_iff.2 ⟨hvalues, rfl⟩
    obtain ⟨l0, l1, l2, l3, rfl⟩ := exists_u32_eq hl
    obtain ⟨h0, h1, h2, h3, rfl⟩ := exists_u32_eq hh
    obtain ⟨n0, n1, n2, n3, hlen⟩ := exists_u32_eq hn
    obtain ⟨hbit0, hbit1, hlt⟩ := bits_flags low.isNone high.isNone
    rw [hbytes, hlen, hlow, hhigh, boundFlag_boundOf, boundFlag_boundOf]
    rw [List.length_map] at hlen
    simp only [u32Bytes_u32, List.cons_append, List.nil_append, decodeFGR, hbit0, hbit1,
      length_flatMap_u32Bytes, hlen, u32s_flatMap hns]
    rw [if_neg (not_not_intro rfl), if_neg (Nat.not_le.2 hlt)]

theorem decodeFFNT_eq_ok_iff {i : Instr} {body : List Byte} :
    decodeFFNT body = .ok i ↔ ∃ f, i = .loadfont f ∧ (Instr.loadfont f).wellFormed = true
      ∧ body = u32Bytes f.length ++ f.flatMap entryBytes := by
  simp only [wellFormed_loadfont]
  constructor
  · intro h
    unfold decodeFFNT at h
    split at h
    case h_1 k0 k1 k2 k3 bytes =>
      split at h
      case h_1 f htake =>
        split at h
        case isTrue hord =>
          cases h
          obtain ⟨hlen, hf, rfl⟩ := takeEntries_eq_some_iff.1 htake
          exact ⟨f, rfl, ⟨hlen ▸ fitsU32_u32 .., hf, hord⟩, by simp [hlen, u32Bytes_u32]⟩
        case isFalse => cases h
      case h_2 => cases h
    case h_2 => cases h
  · rintro ⟨f, rfl, ⟨hn, hf, hord⟩, rfl⟩
    obtain ⟨n0, n1, n2, n3, hlen⟩ := exists_u32_eq hn
    have htake : takeEntries (u32 n0 n1 n2 n3) (f.flatMap entryBytes) = some (f, []) :=
      takeEntries_eq_some_iff.2 ⟨hlen, hf, by simp⟩
    rw [hlen, u32Bytes_u32]
    simp only [List.cons_append, List.nil_append, decodeFFNT, htake, if_pos hord]

/-! ### The decoder reads exactly the packets of well-formed commands -/

/-- The format's decoder answers a command of the opcode it was called for. -/
theorem op_of_decodeBody {o : Op} {i : Instr} {body : List Byte} (h : decodeBody o body = .ok i) :
    i.op = o := by
  cases o
  case init => obtain ⟨rfl, -⟩ := decodeF0_eq_ok_iff.1 h; rfl
  case setmode => obtain ⟨a, h, -⟩ := decodeFB_eq_ok_iff.1 h; cases h; rfl
  case setbrt => obtain ⟨a, h, -⟩ := decodeFB_eq_ok_iff.1 h; cases h; rfl
  case wrstr => obtain ⟨text, x, rfl, -⟩ := decodeFSTR_eq_ok_iff.1 h; rfl
  case graph => obtain ⟨values, low, high, rfl, -⟩ := decodeFGR_eq_ok_iff.1 h; rfl
  case setcol => obtain ⟨x, v, rfl, -⟩ := decodeFXV_eq_ok_iff.1 h; rfl
  case setpix => obtain ⟨x, y, v, rfl, -⟩ := decodeFXYV_eq_ok_iff.1 h; rfl
  case setbuf => obtain ⟨cols, rfl, -⟩ := decodeFBUF_eq_ok_iff.1 h; rfl
  case buflen => obtain ⟨rfl, -⟩ := decodeF0_eq_ok_iff.1 h; rfl
  case scroll => obtain ⟨d, rfl, -⟩ := decodeFW_eq_ok_iff.1 h; rfl
  case scrollto => obtain ⟨p, rfl, -⟩ := decodeFW_eq_ok_iff.1 h; rfl
  case clear => obtain ⟨rfl, -⟩ := decodeF0_eq_ok_iff.1 h; rfl
  case loadfont => obtain ⟨f, rfl, -⟩ := decodeFFNT_eq_ok_iff.1 h; rfl
  case ioerr => obtain ⟨rfl, -⟩ := decodeF0_eq_ok_iff.1 h; rfl
  case update => obtain ⟨rfl, -⟩ := decodeF0_eq_ok_iff.1 h; rfl
  case setrot =>
    obtain ⟨a, h, -⟩ := decodeFB_eq_ok_iff.1 h
    obtain ⟨r, rfl, -⟩ := decodeRot_eq_ok_iff.1 h
    rfl

/-- The bytes after a command's opcode are read as the command exactly when they carry it. -/
theorem decodeBody_eq_ok_iff {i : Instr} {body : List Byte} :
    decodeBody i.op body = .ok i ↔ i.wellFormed = true ∧ PacketBody i body := by
  cases i <;> simp [Instr.op, Instr.wellFormed, PacketBody, encodeBody, decodeBody, and_assoc,
    decodeF0_eq_ok_iff, decodeFB_eq_ok_iff, decodeRot_eq_ok_iff, decodeFW_eq_ok_iff,
    decodeFXV_eq_ok_iff, decodeFXYV_eq_ok_iff, decodeFBUF_eq_ok_iff, decodeFSTR_eq_ok_iff,
    decodeFGR_eq_ok_iff, decodeFFNT_eq_ok_iff]

theorem packetBody_iff_of_op_ne {i : Instr} {body : List Byte} (hpix : i.op ≠ .setpix)
    (hgraph : i.op ≠ .graph) : PacketBody i body ↔ body = encodeBody i := by
  cases i
  case setpix => exact absurd rfl hpix
  case graph => exact absurd rfl hgraph
  all_goals exact Iff.rfl

theorem decode_cons_eq_ok_iff {b : Byte} {body : List Byte} {i : Instr} :
    decode (b :: body) = .ok i ↔ b = i.op.code ∧ i.wellFormed = true ∧ PacketBody i body := by
  constructor
  · intro h
    rw [decode] at h
    split at h
    case h_1 => cases h
    case h_2 o ho =>
      obtain rfl := op_of_decodeBody h
      exact ⟨(code_of_ofByte ho).symm, decodeBody_eq_ok_iff.1 h⟩
  · rintro ⟨rfl, h⟩
    rw [decode, ofByte_code]
    exact decodeBody_eq_ok_iff.2 h

/-- The decoder in one statement: it reads exactly the packets that carry a well-formed command. -/
theorem decode_eq_ok_iff {p : List Byte} {i : Instr} :
    decode p = .ok i ↔ i.wellFormed = true ∧ ∃ body, p = i.op.code :: body ∧ PacketBody i body := by
  cases p with
  | nil => simp [decode]
  | cons b body =>
    rw [decode_cons_eq_ok_iff]
    constructor
    · rintro ⟨rfl, hwf, hbody⟩; exact ⟨hwf, body, rfl, hbody⟩
    · rintro ⟨hwf, _, heq, hbody⟩; cases heq; exact ⟨rfl, hwf, hbody⟩

theorem boundOf_isNone {b : Option Rat} (h : b.all fitsSample = true) :
    boundOf b.isNone ((b.getD 0).num % 2 ^ 32).toNat = b := by
  cases b with
  | none => rfl
  | some q => exact congrArg some (sampleOf_num h)

/-- The encoder's body carries the command. -/
theorem packetBody_encodeBody {i : Instr} (h : i.wellFormed = true) : PacketBody i (encodeBody i) := by
  cases i
  case setpix x y v => cases v; exacts [⟨0, rfl, rfl⟩, ⟨1, rfl, rfl⟩]
  case graph values low high =>
    obtain ⟨-, -, hlow, hhigh⟩ := wellFormed_graph.1 h
    exact ⟨_, _, fitsU32_emod _, fitsU32_emod _, (boundOf_isNone hlow).symm,
      (boundOf_isNone hhigh).symm, rfl⟩
  all_goals rfl

/-- Settles O1: the encoder's packet carries the command, and the decoder reads it from any that does. -/
theorem decodeEncodeRoundTrip : Obligations.DecodeEncodeRoundTrip :=
  fun _ hwf => decode_eq_ok_iff.2 ⟨hwf, _, rfl, packetBody_encodeBody hwf⟩

/-- Settles O2: well-formedness is half of what the decoder's answer is equivalent to. -/
theorem decodedIsWellFormed : Obligations.DecodedIsWellFormed :=
  fun _ _ hdec => (decode_eq_ok_iff.1 hdec).1

end Sys2Proof.Machine
end

section
/-! PROOFS. Scope: the length of a packet (spec/30_encoding.md R86) and the invalid packets (R87). -/

namespace Sys2Proof.Machine

/-! ### Offsets in a packet -/

theorem length_of_packetBody {i : Instr} {body : List Byte} (h : PacketBody i body) :
    body.length = (encodeBody i).length := by
  cases i
  case setpix x y v => obtain ⟨w, -, rfl⟩ := h; rfl
  case graph values low high =>
    obtain ⟨l, h, -, -, -, -, rfl⟩ := h
    simp [encodeBody, boundBytes]
  all_goals exact congrArg List.length h

theorem u32At_u32Bytes_append {v : Nat} (h : fitsU32 v = true) (rest : List Byte) :
    u32At (u32Bytes v ++ rest) 0 = v := by
  obtain ⟨b0, b1, b2, b3, rfl⟩ := exists_u32_eq h
  rw [u32Bytes_u32]; rfl

theorem byteAt_cons_zero (b : Byte) (p : List Byte) : byteAt (b :: p) 0 = b := rfl

theorem byteAt_cons_succ (b : Byte) (p : List Byte) (k : Nat) :
    byteAt (b :: p) (k + 1) = byteAt p k := rfl

theorem u32At_cons_succ (b : Byte) (p : List Byte) (k : Nat) : u32At (b :: p) (k + 1) = u32At p k := rfl

theorem u32At_u32Bytes_append_add (v k : Nat) (rest : List Byte) :
    u32At (u32Bytes v ++ rest) (4 + k) = u32At rest k := by
  rw [Nat.add_comm]; rfl

/-! ### Font entries by their offsets -/

theorem byteAt_width_entryBytes {e : Nat × Glyph} (h : fitsEntry e = true) (p : List Byte) :
    (byteAt (entryBytes e ++ p) 4).toNat = e.2.length :=
  toNat_width (fitsEntry_iff.1 h).2

theorem drop_entryBytes (e : Nat × Glyph) (p : List Byte) :
    (entryBytes e ++ p).drop (5 + e.2.length) = p := by
  apply List.drop_left'
  simp [entryBytes]; omega

theorem entriesLength_flatMap {f : Font} (h : ∀ e ∈ f, fitsEntry e = true) (rest : List Byte) :
    entriesLength f.length (f.flatMap entryBytes ++ rest) = (f.flatMap entryBytes).length := by
  induction f with
  | nil => rfl
  | cons e f ih =>
    obtain ⟨he, hf⟩ := List.forall_mem_cons.1 h
    rw [List.flatMap_cons, List.append_assoc, List.length_cons, entriesLength,
      byteAt_width_entryBytes he, drop_entryBytes, ih hf, List.length_append]
    simp [entryBytes]; omega

theorem entryCodes_flatMap {f : Font} (h : ∀ e ∈ f, fitsEntry e = true) (rest : List Byte) :
    entryCodes f.length (f.flatMap entryBytes ++ rest) = f.map Prod.fst := by
  induction f with
  | nil => rfl
  | cons e f ih =>
    obtain ⟨he, hf⟩ := List.forall_mem_cons.1 h
    rw [List.flatMap_cons, List.append_assoc, List.length_cons, entryCodes,
      byteAt_width_entryBytes he, drop_entryBytes, ih hf, List.map_cons, entryBytes,
      List.append_assoc, List.append_assoc, u32At_u32Bytes_append (fitsEntry_iff.1 he).1]

/-- Bytes of the length that `k` entries have by their offsets are `k` entries that fit. -/
theorem exists_entries {k : Nat} {p : List Byte} (h : entriesLength k p = p.length) :
    ∃ f : Font, f.length = k ∧ (∀ e ∈ f, fitsEntry e = true) ∧ p = f.flatMap entryBytes := by
  induction k generalizing p with
  | zero => exact ⟨[], rfl, by simp, List.length_eq_zero_iff.1 h.symm⟩
  | succ k ih =>
    rw [entriesLength] at h
    obtain ⟨e, tail, he, rfl⟩ := exists_entry (p := p) (by omega)
    rw [byteAt_width_entryBytes he, drop_entryBytes] at h
    obtain ⟨f, rfl, hf, rfl⟩ := ih (p := tail) (by simp [entryBytes] at h; omega)
    exact ⟨e :: f, rfl, List.forall_mem_cons.2 ⟨he, hf⟩, rfl⟩

/-! ### The length of a packet -/

theorem packetLength_code (o : Op) (body : List Byte) :
    packetLength (o.code :: body) = some (o.format.length (o.code :: body)) := by
  simp [packetLength, ofByte_code]

theorem packetLength_of_packetBody {i : Instr} {body : List Byte} (hwf : i.wellFormed = true)
    (h : PacketBody i body) : packetLength (i.op.code :: body) = some (body.length + 1) := by
  rw [packetLength_code]
  congr 1
  cases i
  case setpix x y v => obtain ⟨w, -, rfl⟩ := h; rfl
  case graph values low high =>
    obtain ⟨l, h, -, -, -, -, rfl⟩ := h
    obtain ⟨hn, -⟩ := wellFormed_graph.1 hwf
    change 14 + 4 * u32At (u32Bytes values.length ++ values.flatMap fun q => s32Bytes q.num) 0 = _
    rw [u32At_u32Bytes_append hn]
    simp [List.length_flatMap]; omega
  all_goals obtain rfl := h
  case setbuf cols =>
    obtain ⟨-, hn⟩ := wellFormed_setbuf.1 hwf
    change 5 + u32At (u32Bytes cols.length ++ cols) 0 = _
    rw [u32At_u32Bytes_append hn]
    simp [encodeBody]; omega
  case wrstr text x =>
    obtain ⟨-, hn, -⟩ := wellFormed_wrstr.1 hwf
    change 9 + 4 * u32At (u32Bytes text.length ++ text.flatMap u32Bytes) 0 = _
    rw [u32At_u32Bytes_append hn]
    simp [encodeBody, List.length_flatMap]; omega
  case loadfont f =>
    obtain ⟨hn, hf, -⟩ := wellFormed_loadfont.1 hwf
    change 5 + entriesLength (u32At (u32Bytes f.length ++ f.flatMap entryBytes) 0)
      (f.flatMap entryBytes) = _
    rw [u32At_u32Bytes_append hn, ← List.append_nil (f.flatMap entryBytes), entriesLength_flatMap hf]
    simp [encodeBody]; omega
  all_goals rfl

/-- Settles O4: all three parts are facts about the body that carries the command. -/
theorem decodedPacketIsItsEncoding : Obligations.DecodedPacketIsItsEncoding := by
  intro p i hdec
  obtain ⟨hwf, body, rfl, hbody⟩ := decode_eq_ok_iff.1 hdec
  refine ⟨packetLength_of_packetBody hwf hbody, ?_, fun hpix hgraph => ?_⟩
  · exact congrArg (· + 1) (length_of_packetBody hbody).symm
  · rw [(packetBody_iff_of_op_ne hpix hgraph).1 hbody, encode]

/-! ### The invalid packets -/

/-- The reserved opcodes (R87 (b)). -/
theorem ofByte_eq_none_iff {b : Byte} : Op.ofByte b = none ↔ b = 0x00 ∨ 0x11 ≤ b.toNat := by
  revert b; decide

/-- The field conditions of R87, (d) to (h), at their offsets in the bytes after the opcode: what
`packetInvalid` asks beside the opcode and the length (`packetInvalid_code_iff`). -/
def fieldsInvalid (o : Op) (body : List Byte) : Prop :=
  match o with
  | .setrot => 2 ≤ (byteAt body 0).toNat
  | .setpix => 8 ≤ (byteAt body 4).toNat
  | .graph => 4 ≤ (byteAt body 0).toNat
  | .loadfont => ¬ (entryCodes (u32At body 0) (body.drop 4)).Pairwise (· < ·)
  | .setbuf => u32At body 0 < 11
  | _ => False

theorem packetInvalid_code_iff {o : Op} {body : List Byte} :
    packetInvalid (o.code :: body)
      ↔ o.format.length (o.code :: body) ≠ body.length + 1 ∨ fieldsInvalid o body := by
  rw [packetInvalid, packetLength_code]
  cases o <;> simp [fieldsInvalid, Op.code, byteAt_cons_zero, byteAt_cons_succ, u32At_cons_succ]

theorem fieldsValid_of_packetBody {i : Instr} {body : List Byte} (hwf : i.wellFormed = true)
    (h : PacketBody i body) : ¬ fieldsInvalid i.op body := by
  cases i
  case setpix x y v =>
    obtain ⟨w, -, rfl⟩ := h
    change ¬ 8 ≤ (BitVec.ofNat 8 y.val).toNat
    rw [BitVec.toNat_ofNat]
    omega
  case graph values low high =>
    obtain ⟨l, h, -, -, hlow, hhigh, rfl⟩ := h
    rw [hlow, hhigh, boundFlag_boundOf, boundFlag_boundOf]
    exact Nat.not_le.2 (bits_flags _ _).2.2
  case setrot r =>
    subst h
    change ¬ 2 ≤ (if r then 1 else 0 : Byte).toNat
    cases r <;> decide
  case setbuf cols =>
    obtain ⟨hmin, hn⟩ := wellFormed_setbuf.1 hwf
    subst h
    change ¬ u32At (u32Bytes cols.length ++ cols) 0 < 11
    rw [u32At_u32Bytes_append hn]
    exact Nat.not_lt.2 hmin
  case loadfont f =>
    obtain ⟨hn, hf, hord⟩ := wellFormed_loadfont.1 hwf
    subst h
    change ¬ ¬ (entryCodes (u32At (u32Bytes f.length ++ f.flatMap entryBytes) 0)
      (f.flatMap entryBytes)).Pairwise (· < ·)
    rw [u32At_u32Bytes_append hn, ← List.append_nil (f.flatMap entryBytes), entryCodes_flatMap hf]
    exact not_not_intro (List.pairwise_map.2 hord)
  all_goals exact not_false

theorem exists_wrstr_packetBody {body : List Byte} (hlen : body.length = 8 + 4 * u32At body 4) :
    ∃ text x, (Instr.wrstr text x).wellFormed = true ∧ PacketBody (.wrstr text x) body := by
  obtain ⟨x, rest, hx, rfl⟩ := exists_field (p := body) (by omega)
  rw [List.length_append, length_u32Bytes, u32At_u32Bytes_append_add x 0] at hlen
  obtain ⟨n, rest, hn, rfl⟩ := exists_field (p := rest) (by omega)
  rw [List.length_append, length_u32Bytes, u32At_u32Bytes_append hn] at hlen
  obtain ⟨text, rfl, htext, rfl⟩ := exists_fields (n := n) (p := rest) (by omega)
  exact ⟨text, x, wellFormed_wrstr.2 ⟨hx, hn, htext⟩, (List.append_assoc _ _ _).symm⟩

theorem exists_graph_packetBody {body : List Byte} (hlen : body.length = 13 + 4 * u32At body 9)
    (hflags : (byteAt body 0).toNat < 4) :
    ∃ values low high, (Instr.graph values low high).wellFormed = true
      ∧ PacketBody (.graph values low high) body := by
  obtain _ | ⟨flags, rest⟩ := body
  · rw [List.length_nil] at hlen
    omega
  rw [u32At_cons_succ, List.length_cons] at hlen
  obtain ⟨l, rest, hl, rfl⟩ := exists_field (p := rest) (by omega)
  rw [List.length_append, length_u32Bytes, u32At_u32Bytes_append_add l 4] at hlen
  obtain ⟨h, rest, hh, rfl⟩ := exists_field (p := rest) (by omega)
  rw [List.length_append, length_u32Bytes, u32At_u32Bytes_append_add h 0] at hlen
  obtain ⟨n, rest, hn, rfl⟩ := exists_field (p := rest) (by omega)
  rw [List.length_append, length_u32Bytes, u32At_u32Bytes_append hn] at hlen
  obtain ⟨ns, rfl, hns, rfl⟩ := exists_fields (n := n) (p := rest) (by omega)
  exact ⟨_, _, _, by simpa using packetBody_graph (flags := flags) hflags hl hh hn hns⟩

theorem exists_loadfont_packetBody {body : List Byte}
    (hlen : body.length = 4 + entriesLength (u32At body 0) (body.drop 4))
    (hcodes : (entryCodes (u32At body 0) (body.drop 4)).Pairwise (· < ·)) :
    ∃ f, (Instr.loadfont f).wellFormed = true ∧ PacketBody (.loadfont f) body := by
  obtain ⟨n, rest, hn, rfl⟩ := exists_field (p := body) (by omega)
  rw [u32At_u32Bytes_append hn, List.drop_left' (length_u32Bytes n)] at hlen hcodes
  rw [List.length_append, length_u32Bytes] at hlen
  obtain ⟨f, rfl, hf, rfl⟩ := exists_entries (k := n) (p := rest) (by omega)
  rw [← List.append_nil (f.flatMap entryBytes), entryCodes_flatMap hf, List.pairwise_map] at hcodes
  exact ⟨f, wellFormed_loadfont.2 ⟨hn, hf, hcodes⟩, rfl⟩

/-- Bytes of the format's length whose fields are in range carry a command of the opcode. -/
theorem exists_packetBody {o : Op} {body : List Byte}
    (hlen : o.format.length (o.code :: body) = body.length + 1) (hfields : ¬ fieldsInvalid o body) :
    ∃ i : Instr, i.op = o ∧ i.wellFormed = true ∧ PacketBody i body := by
  have hF0 : 1 = body.length + 1 → body = [] := fun h => List.length_eq_zero_iff.1 (by omega)
  have hFB : 2 = body.length + 1 → ∃ a, body = [a] := fun h => List.length_eq_one_iff.1 (by omega)
  have hFW : 5 = body.length + 1 → ∃ d, fitsS32 d = true ∧ body = s32Bytes d := fun h =>
    exists_signedField (by omega)
  cases o
  case init => exact ⟨.init, rfl, rfl, hF0 hlen⟩
  case buflen => exact ⟨.buflen, rfl, rfl, hF0 hlen⟩
  case clear => exact ⟨.clear, rfl, rfl, hF0 hlen⟩
  case ioerr => exact ⟨.ioerr, rfl, rfl, hF0 hlen⟩
  case update => exact ⟨.update, rfl, rfl, hF0 hlen⟩
  case setmode => obtain ⟨m, hm⟩ := hFB hlen; exact ⟨.setmode m, rfl, rfl, hm⟩
  case setbrt => obtain ⟨b, hb⟩ := hFB hlen; exact ⟨.setbrt b, rfl, rfl, hb⟩
  case scroll => obtain ⟨d, hd, hbody⟩ := hFW hlen; exact ⟨.scroll d, rfl, hd, hbody⟩
  case scrollto => obtain ⟨d, hd, hbody⟩ := hFW hlen; exact ⟨.scrollto d, rfl, hd, hbody⟩
  case setrot =>
    obtain ⟨a, rfl⟩ := hFB hlen
    obtain rfl | rfl : a = 0 ∨ a = 1 := by
      change ¬ 2 ≤ a.toNat at hfields
      bv_omega
    · exact ⟨.setrot false, rfl, rfl, rfl⟩
    · exact ⟨.setrot true, rfl, rfl, rfl⟩
  case setcol =>
    change 6 = body.length + 1 at hlen
    obtain ⟨x, rest, hx, rfl⟩ := exists_field (p := body) (by omega)
    obtain ⟨v, rfl⟩ := List.length_eq_one_iff.1 (show rest.length = 1 by simp at hlen; omega)
    exact ⟨.setcol x v, rfl, hx, rfl⟩
  case setpix =>
    change 7 = body.length + 1 at hlen
    obtain ⟨x, rest, hx, rfl⟩ := exists_field (p := body) (by omega)
    obtain ⟨y, v, rfl⟩ := List.length_eq_two.1 (show rest.length = 2 by simp at hlen; omega)
    change ¬ 8 ≤ y.toNat at hfields
    exact ⟨.setpix x ⟨y.toNat, by omega⟩ (v != 0), rfl, hx, v, rfl, by simp⟩
  case setbuf =>
    change 5 + u32At body 0 = body.length + 1 at hlen
    obtain ⟨n, cols, hn, rfl⟩ := exists_field (p := body) (by omega)
    change ¬ u32At (u32Bytes n ++ cols) 0 < 11 at hfields
    rw [u32At_u32Bytes_append hn] at hlen hfields
    obtain rfl : n = cols.length := by simp at hlen; omega
    exact ⟨.setbuf cols, rfl, wellFormed_setbuf.2 ⟨Nat.not_lt.1 hfields, hn⟩, rfl⟩
  case wrstr =>
    change 9 + 4 * u32At body 4 = body.length + 1 at hlen
    obtain ⟨text, x, h⟩ := exists_wrstr_packetBody (body := body) (by omega)
    exact ⟨.wrstr text x, rfl, h⟩
  case graph =>
    change 14 + 4 * u32At body 9 = body.length + 1 at hlen
    obtain ⟨values, low, high, h⟩ :=
      exists_graph_packetBody (body := body) (by omega) (Nat.not_le.1 hfields)
    exact ⟨.graph values low high, rfl, h⟩
  case loadfont =>
    change 5 + entriesLength (u32At body 0) (body.drop 4) = body.length + 1 at hlen
    obtain ⟨f, h⟩ := exists_loadfont_packetBody (body := body) (by omega) (not_not.1 hfields)
    exact ⟨.loadfont f, rfl, h⟩

theorem packetInvalid_iff_not_ok {p : List Byte} : packetInvalid p ↔ ¬ ∃ i, decode p = .ok i := by
  cases p with
  | nil => simp [packetInvalid, decode]
  | cons b body =>
    cases hop : Op.ofByte b with
    | none =>
      have hinv : packetInvalid (b :: body) := .inr (.inl (ofByte_eq_none_iff.1 hop))
      simp [decode, hop, hinv]
    | some o =>
      obtain rfl := code_of_ofByte hop
      rw [packetInvalid_code_iff, ← not_iff_not, not_or, not_not, not_not]
      constructor
      · rintro ⟨hlen, hfields⟩
        obtain ⟨i, rfl, h⟩ := exists_packetBody hlen hfields
        exact ⟨i, decode_cons_eq_ok_iff.2 ⟨rfl, h⟩⟩
      · rintro ⟨i, hdec⟩
        rw [decode, hop] at hdec
        obtain rfl := op_of_decodeBody hdec
        obtain ⟨hwf, hbody⟩ := decodeBody_eq_ok_iff.1 hdec
        have hlen := packetLength_of_packetBody hwf hbody
        rw [packetLength_code, Option.some.injEq] at hlen
        exact ⟨hlen, fieldsValid_of_packetBody hwf hbody⟩

theorem exists_error_iff_not_ok {r : Except PacketError Instr} :
    (∃ why, r = .error why) ↔ ¬ ∃ i, r = .ok i := by
  cases r <;> simp

/-- Settles O3: an error is the absence of a command, and `packetInvalid_iff_not_ok` says when. -/
theorem invalidPacketsExactly : Obligations.InvalidPacketsExactly := by
  have hiff : ∀ p, (∃ why, decode p = .error why) ↔ packetInvalid p := fun p =>
    exists_error_iff_not_ok.trans packetInvalid_iff_not_ok.symm
  refine ⟨hiff, fun p rest s hinv hport => ?_⟩
  obtain ⟨why, hwhy⟩ := (hiff p).2 hinv
  exact ⟨why, by simp only [step, hport, readSubmission, hwhy]⟩

end Sys2Proof.Machine
end

section
/-! PROOFS. Scope: the packet layouts, field by field (spec/30_encoding.md R82 to R85). -/

namespace Sys2Proof.Machine

theorem le32_eq_u32Bytes (v : BitVec 32) : le32 v = u32Bytes v.toNat := by
  simp [le32, u32Bytes, BitVec.extractLsb', Nat.shiftRight_eq_div_pow]

theorem sext32_toNat_eq_toInt (v : BitVec 32) : sext32 v.toNat = v.toInt := by
  simp only [sext32, BitVec.toInt]
  split <;> split <;> omega

theorem le32_eq_s32Bytes (v : BitVec 32) : le32 v = s32Bytes v.toInt := by
  rw [← sext32_toNat_eq_toInt, s32Bytes, sext32_toNat v.isLt, le32_eq_u32Bytes]

theorem fitsU32_toNat (v : BitVec 32) : fitsU32 v.toNat = true := fitsU32_iff.2 v.isLt

theorem fitsS32_toInt (v : BitVec 32) : fitsS32 v.toInt = true :=
  decide_eq_true ⟨v.le_toInt, v.toInt_lt⟩

theorem countField_eq_u32Bytes {n : Nat} (h : n < 2 ^ 32) : countField n = u32Bytes n := by
  rw [countField, le32_eq_u32Bytes, BitVec.toNat_ofNat, Nat.mod_eq_of_lt h]

theorem sampleOf_toNat (v : BitVec 32) : sampleOf v.toNat = (v.toInt : Rat) := by
  rw [sampleOf, sext32_toNat_eq_toInt]

theorem entryField_eq_entryBytes (e : BitVec 32 × Glyph) :
    entryField e = entryBytes (e.1.toNat, e.2) := by
  rw [entryField, entryBytes, le32_eq_u32Bytes]

theorem flatMap_le32 (vs : List (BitVec 32)) :
    vs.flatMap le32 = (vs.map BitVec.toNat).flatMap u32Bytes := by
  rw [List.flatMap_map]
  exact congrArg (vs.flatMap ·) (funext le32_eq_u32Bytes)

theorem fitsU32_of_mem_map_toNat (vs : List (BitVec 32)) :
    ∀ v ∈ vs.map BitVec.toNat, fitsU32 v = true :=
  List.forall_mem_map.2 fun v _ => fitsU32_toNat v

/-- Settles O6: a layout is the packet of a well-formed command, which O1 reads back; SETPIX's and
GRAPH's, which may differ from the encoder's, carry their command by `PacketBody`. -/
theorem packetLayouts : Obligations.PacketLayouts := by
  refine ⟨?f0, ?fb, ?rot, ?fw, ?fxv, ?fxyv, ?fbuf, ?fstr, ?fgr, ?ffnt⟩
  case f0 => exact ⟨rfl, rfl, rfl, rfl, rfl⟩
  case fb => exact fun a => ⟨rfl, rfl⟩
  case rot => exact ⟨rfl, rfl⟩
  case fw =>
    intro a
    rw [le32_eq_s32Bytes]
    exact ⟨decodeEncodeRoundTrip (.scroll a.toInt) (fitsS32_toInt a),
      decodeEncodeRoundTrip (.scrollto a.toInt) (fitsS32_toInt a)⟩
  case fxv =>
    intro x v
    rw [le32_eq_u32Bytes]
    exact decodeEncodeRoundTrip (.setcol x.toNat v) (fitsU32_toNat x)
  case fxyv =>
    intro x y v
    rw [le32_eq_u32Bytes]
    have hv : decide (v ≠ 0) = (v != 0) := by rw [bne, beq_eq_decide, decide_not]
    exact decode_cons_eq_ok_iff.2 ⟨rfl, fitsU32_toNat x, v, hv, rfl⟩
  case fbuf =>
    intro cols hmin hn
    rw [countField_eq_u32Bytes hn]
    exact decodeEncodeRoundTrip _ (wellFormed_setbuf.2 ⟨hmin, fitsU32_iff.2 hn⟩)
  case fstr =>
    intro x text hn
    have hlen : text.length = (text.map BitVec.toNat).length := (List.length_map _).symm
    rw [le32_eq_u32Bytes, countField_eq_u32Bytes hn, flatMap_le32, hlen]
    exact decodeEncodeRoundTrip _ (wellFormed_wrstr.2 ⟨fitsU32_toNat x, fitsU32_iff.2 (hlen ▸ hn),
      fitsU32_of_mem_map_toNat text⟩)
  case fgr =>
    intro a b low high values hn
    obtain ⟨hbit0, hbit1, hlt⟩ := bits_flags a b
    have hlen : (values.map BitVec.toNat).length = values.length := List.length_map _
    have hread := decode_cons_eq_ok_iff.2 ⟨rfl, packetBody_graph hlt (fitsU32_toNat low)
      (fitsU32_toNat high) (hlen ▸ fitsU32_iff.2 hn) (fitsU32_of_mem_map_toNat values)⟩
    rw [hbit0, hbit1, hlen, List.map_map] at hread
    simp only [Function.comp_def, boundOf, sampleOf_toNat] at hread
    rw [le32_eq_u32Bytes, le32_eq_u32Bytes, countField_eq_u32Bytes hn, flatMap_le32]
    exact hread
  case ffnt =>
    intro f hn hwidth hord
    have hbytes : f.flatMap entryField = (f.map fun e => (e.1.toNat, e.2)).flatMap entryBytes := by
      rw [List.flatMap_map]
      exact congrArg (f.flatMap ·) (funext entryField_eq_entryBytes)
    have hlen : f.length = (f.map fun e => (e.1.toNat, e.2)).length := (List.length_map _).symm
    rw [countField_eq_u32Bytes hn, hbytes, hlen]
    exact decodeEncodeRoundTrip _ (wellFormed_loadfont.2 ⟨fitsU32_iff.2 (hlen ▸ hn),
      List.forall_mem_map.2 fun e he => fitsEntry_iff.2 ⟨fitsU32_toNat e.1, hwidth e he⟩,
      List.pairwise_map.2 hord⟩)

end Sys2Proof.Machine
end

section
/-! PROOFS. Scope: SETCOL, SETPIX, CLEAR, SETBUF, BUFLEN (spec/40_framebuffer.md R111 to R115). -/

namespace Sys2Proof.Machine

/-! ### What the framebuffer commands leave unchanged -/

/-- SETCOL and SETPIX write `BUF` alone (R111, R112). -/
theorem State.setBuf_frame (s : State) (m : Memory) :
    (s.setBuf m).off = s.off ∧ (s.setBuf m).rot = s.rot ∧ (s.setBuf m).err = s.err
      ∧ (s.setBuf m).font = s.font ∧ (s.setBuf m).busOpen = s.busOpen
      ∧ (s.setBuf m).trace = s.trace ∧ s.Quiet (s.setBuf m) :=
  ⟨rfl, rfl, rfl, rfl, rfl, rfl, rfl, rfl, rfl, rfl⟩

/-- CLEAR and SETBUF write `BUF` and `OFF` alone (R113, R114). -/
theorem State.setBuf_setOff_frame (s : State) (m : Memory) (o : Nat) :
    ((s.setBuf m).setOff o).rot = s.rot ∧ ((s.setBuf m).setOff o).err = s.err
      ∧ ((s.setBuf m).setOff o).font = s.font ∧ ((s.setBuf m).setOff o).busOpen = s.busOpen
      ∧ ((s.setBuf m).setOff o).trace = s.trace ∧ s.Quiet ((s.setBuf m).setOff o) :=
  ⟨rfl, rfl, rfl, rfl, rfl, rfl, rfl, rfl, rfl⟩

/-! ### One column written (R111, R112) -/

theorem Memory.read_setCol_self {m : Memory} (h : m.wf) (x : Nat) (v : Byte) :
    (m.setCol x v).read x = v :=
  (Memory.read_setCol h x v x).trans (if_pos rfl)

theorem Memory.read_setCol_of_ne {m : Memory} (h : m.wf) {x i : Nat} (hi : i ≠ x) (v : Byte) :
    (m.setCol x v).read i = m.read i :=
  (Memory.read_setCol h x v i).trans (if_neg hi)

/-- Settles O25: the gap columns are other columns, which read as before, and that is 0 past the old
length. -/
theorem setcolWritesOneColumn : Obligations.SetcolWritesOneColumn := by
  intro x v s hwf
  refine ⟨⟨rfl, rfl⟩, fun hfits => ⟨_, exec_setcol_eq_next.2 ⟨hfits, rfl⟩, ?_⟩,
    fun hcap => whenFits_of_not hcap _⟩
  have hother (i : Nat) (hi : i ≠ x) : (s.buf.setCol x v).read i = s.buf.read i :=
    Memory.read_setCol_of_ne hwf hi v
  have hgap (i : Nat) (hlen : s.buf.len ≤ i) (hi : i < x) : (s.buf.setCol x v).read i = 0 :=
    (hother i hi.ne).trans (Memory.read_of_ge hwf hlen)
  exact ⟨rfl, Memory.read_setCol_self hwf x v, hother, hgap, s.setBuf_frame _⟩

/-- Settles O26: SETPIX is SETCOL of the old column with one bit replaced. -/
theorem setpixChangesOneBit : Obligations.SetpixChangesOneBit := by
  intro x y v s hwf
  refine ⟨⟨rfl, rfl⟩, fun hfits => ⟨_, exec_setpix_eq_next.2 ⟨hfits, rfl⟩, ?_⟩,
    fun hcap => whenFits_of_not hcap _⟩
  have hbits (k : Nat) :
      ((s.buf.setCol x (pixelColumn (s.buf.read x) y v)).read x).getLsbD k =
        if k = y.val then v else (s.buf.read x).getLsbD k := by
    rw [Memory.read_setCol_self hwf, getLsbD_pixelColumn]
  exact ⟨rfl, (hbits y.val).trans (if_pos rfl), fun k hk => (hbits k).trans (if_neg hk),
    fun i hi => Memory.read_setCol_of_ne hwf hi _, fun i hi => Memory.read_of_ge hwf hi,
    s.setBuf_frame _⟩

/-! ### The whole buffer replaced (R113, R114) -/

@[simp] theorem Memory.columns_blank : Memory.blank.columns = List.replicate 11 0 :=
  rfl

@[simp] theorem Memory.columns_ofColumns (cols : List Byte) :
    (Memory.ofColumns cols).columns = cols := by
  refine List.ext_getElem (Memory.length_slice ..) fun i _ hi => ?_
  calc (Memory.ofColumns cols).columns[i]
    _ = (Memory.ofColumns cols).read (0 + i) := Memory.getElem_slice ..
    _ = cols.getD i 0 := by rw [Nat.zero_add, Memory.read_ofColumns]
    _ = cols[i] := List.getD_eq_getElem cols 0 hi

/-- The floored modulo of R8 is the ordinary one on an offset. -/
@[simp] theorem floorMod_natCast (a l : Nat) : floorMod a l = a % l := rfl

/-- Settles O29: `short_buffer` is tested before `capacity`, and the offset is reduced by the new
length, which changes nothing below it. -/
theorem setbufReplacesBuffer : Obligations.SetbufReplacesBuffer := by
  intro cols s
  refine ⟨⟨rfl, rfl⟩, fun hmin hfits => ⟨_, exec_setbuf_eq_next.2 ⟨hmin, hfits, rfl⟩, ?_⟩,
    fun hshort => if_pos hshort,
    fun hmin hcap => (if_neg hmin.not_gt).trans (whenFits_of_not hcap _)⟩
  have hoff : floorMod s.off cols.length = s.off % cols.length := floorMod_natCast ..
  exact ⟨Memory.columns_ofColumns cols, rfl, Memory.wf_ofColumns cols, hoff,
    fun hlt => hoff.trans (Nat.mod_eq_of_lt hlt), s.setBuf_setOff_frame _ _⟩

/-- Settles O28: CLEAR leaves `Memory.blank` and offset 0, whatever was there. -/
theorem clearEmptiesBuffer : Obligations.ClearEmptiesBuffer := fun s =>
  ⟨⟨rfl, rfl⟩, _, exec_clear_eq_next.2 rfl, Memory.columns_blank, Memory.len_blank,
    Memory.read_blank, rfl, s.setBuf_setOff_frame _ _⟩

/-! ### The length answered (R115) -/

/-- Settles O30: BUFLEN appends its response to the trace and touches no other field. -/
theorem buflenResponds : Obligations.BuflenResponds := fun s =>
  ⟨⟨rfl, rfl⟩, _, exec_buflen_eq_next.2 rfl, s.emit_trace _, s.emit_buf _, s.emit_off _,
    s.emit_rot _, s.emit_err _, s.emit_font _, s.emit_busOpen _, s.emit_answers _,
    s.emit_freeCount _, s.emit_cfg _, s.emit_port _⟩

end Sys2Proof.Machine
end

section
/-! PROOFS. Scope: the window and its slices, `rotate5`, the frame (spec/41_window.md R130 to R133). -/

namespace Sys2Proof.Machine

/-! ### The slices of the window (R130) -/

theorem windowOf_of_le {m : Memory} {off : Nat} (h : off + 11 ≤ m.len) :
    windowOf m off = m.slice off 11 :=
  if_pos h

theorem windowOf_of_lt {m : Memory} {off : Nat} (h : m.len < off + 11) :
    windowOf m off = m.slice off (m.len - off) ++ m.slice 0 (11 - (m.len - off)) :=
  if_neg h.not_ge

theorem Memory.take_slice (m : Memory) (i : Nat) {k n : Nat} (h : k ≤ n) :
    (m.slice i n).take k = m.slice i k := by
  obtain ⟨b, rfl⟩ := Nat.exists_eq_add_of_le h
  rw [Memory.slice_add]
  exact List.take_left' (m.length_slice i k)

theorem Memory.drop_slice (m : Memory) (i : Nat) {k n : Nat} (h : k ≤ n) :
    (m.slice i n).drop k = m.slice (i + k) (n - k) := by
  obtain ⟨b, rfl⟩ := Nat.exists_eq_add_of_le h
  rw [Memory.slice_add, Nat.add_sub_cancel_left]
  exact List.drop_left' (m.length_slice i k)

theorem Memory.take_columns {m : Memory} {k : Nat} (h : k ≤ m.len) :
    m.columns.take k = m.slice 0 k :=
  m.take_slice 0 h

theorem Memory.drop_columns {m : Memory} {k : Nat} (h : k ≤ m.len) :
    m.columns.drop k = m.slice k (m.len - k) :=
  (m.drop_slice 0 h).trans (by rw [Nat.zero_add])

/-- Settles O31: `BUF[o:]` and `BUF[0:k]` of the source are slices of the column memory. -/
theorem windowIsTwoSlices : Obligations.WindowIsTwoSlices := by
  intro m off hlen hoff
  rw [Memory.drop_columns hoff.le, Memory.take_columns (by omega)]
  refine ⟨fun hfit => ?straight, fun hwrap => ?wrapped, length_windowOf hoff⟩
  case straight => rw [windowOf_of_le hfit, m.take_slice off (by omega)]
  case wrapped => exact windowOf_of_lt hwrap

/-! ### The mirrored column (R131) -/

/-- Bit `k` of `c` mirrored into `r`: one round of `rotate5`. -/
def mirrorBit (c r : Byte) (k : Nat) : Byte :=
  if c.getLsbD k then r ||| BitVec.ofNat 8 (2 ^ (4 - k)) else r

theorem rotate5_eq_foldl (c : Byte) : rotate5 c = (List.range 5).foldl (mirrorBit c) 0 := rfl

theorem getLsbD_mirrorBit (c r : Byte) (k j : Nat) :
    (mirrorBit c r k).getLsbD j = (r.getLsbD j || (c.getLsbD k && decide (j = 4 - k))) := by
  have hmask : (BitVec.ofNat 8 (2 ^ (4 - k))).getLsbD j = decide (j = 4 - k) :=
    getLsbD_bitMask ⟨4 - k, by omega⟩ j
  unfold mirrorBit
  cases c.getLsbD k
  · simp
  · rw [if_pos rfl, BitVec.getLsbD_or, hmask, Bool.true_and]

theorem getLsbD_foldl_mirrorBit (c r : Byte) (ks : List Nat) (j : Nat) :
    (ks.foldl (mirrorBit c) r).getLsbD j =
      (r.getLsbD j || ks.any fun k => c.getLsbD k && decide (j = 4 - k)) := by
  induction ks generalizing r with
  | nil => simp
  | cons k ks ih => rw [List.foldl_cons, ih, getLsbD_mirrorBit, List.any_cons, Bool.or_assoc]

/-- R131 for every bit at once. -/
theorem getLsbD_rotate5 (c : Byte) (j : Nat) :
    (rotate5 c).getLsbD j = (decide (j < 5) && c.getLsbD (4 - j)) := by
  have hany : ((List.range 5).any fun k => c.getLsbD k && decide (j = 4 - k)) = true
      ↔ j < 5 ∧ c.getLsbD (4 - j) = true := by
    simp only [List.any_eq_true, List.mem_range, Bool.and_eq_true, decide_eq_true_eq]
    constructor
    · rintro ⟨k, hk, hbit, rfl⟩
      exact ⟨by omega, by rwa [Nat.sub_sub_self (by omega)]⟩
    · rintro ⟨hj, hbit⟩
      exact ⟨4 - j, by omega, hbit, by omega⟩
  rw [rotate5_eq_foldl, getLsbD_foldl_mirrorBit, Bool.eq_iff_iff]
  simpa using hany

theorem toNat_rotate5_lt (c : Byte) : (rotate5 c).toNat < 32 := by
  refine Nat.lt_pow_two_of_testBit (n := 5) _ fun k hk => ?_
  rw [BitVec.testBit_toNat, getLsbD_rotate5, decide_eq_false hk.not_gt, Bool.false_and]

/-- The mirror is its own inverse on the five rows, and the other bits are lost (R131, D9). -/
theorem toNat_rotate5_rotate5 (c : Byte) : (rotate5 (rotate5 c)).toNat = c.toNat % 32 := by
  refine Nat.eq_of_testBit_eq fun k => ?_
  rw [BitVec.testBit_toNat, getLsbD_rotate5, getLsbD_rotate5, show 32 = 2 ^ 5 from rfl,
    Nat.testBit_mod_two_pow, BitVec.testBit_toNat]
  by_cases hk : k < 5
  · rw [Nat.sub_sub_self (by omega), decide_eq_true (by omega : 4 - k < 5), Bool.true_and]
  · simp [hk]

theorem rotate5_rotate5_of_lt {c : Byte} (h : c.toNat < 32) : rotate5 (rotate5 c) = c :=
  BitVec.eq_of_toNat_eq ((toNat_rotate5_rotate5 c).trans (Nat.mod_eq_of_lt h))

/-- Settles O33: `getLsbD_rotate5` on the five rows and past them. -/
theorem rotate5MirrorsRows : Obligations.Rotate5MirrorsRows := by
  intro c
  refine ⟨fun k hk => ?row, fun k hk => ?unused, toNat_rotate5_rotate5 c⟩
  case row => rw [getLsbD_rotate5, decide_eq_true hk, Bool.true_and]
  case unused => rw [getLsbD_rotate5, decide_eq_false hk.not_gt, Bool.false_and]

/-! ### The frame (R132, R133) -/

theorem frame_of_not_rot {s : State} (h : s.rot = false) :
    s.frame = windowOf s.buf s.off ++ [0xFF] := by
  simp [State.frame, h]

theorem frame_of_rot {s : State} (h : s.rot = true) :
    s.frame = rotateWindow (windowOf s.buf s.off) ++ [0xFF] := by
  simp [State.frame, h]

theorem getElem?_rotateWindow {w : List Byte} {i : Nat} (h : i < w.length) :
    (rotateWindow w)[i]? = w[w.length - 1 - i]?.map rotate5 := by
  rw [rotateWindow, List.getElem?_map, List.getElem?_reverse h]

theorem getElem?_frame_of_rot {s : State} (hw : s.windowDefined) (h : s.rot = true) {i : Nat}
    (hi : i < 11) : s.frame[i]? = (windowOf s.buf s.off)[10 - i]?.map rotate5 := by
  have hlen : (windowOf s.buf s.off).length = 11 := length_windowOf hw.2
  rw [frame_of_rot h, List.getElem?_append_left (by rwa [length_rotateWindow, hlen]),
    getElem?_rotateWindow (by rwa [hlen]), hlen]

theorem getLast?_frame (s : State) : s.frame.getLast? = some 0xFF :=
  List.getLast?_concat

/-- Settles O34: the terminator is appended to a list of 11, rotated or not. -/
theorem frameLayout : Obligations.FrameLayout := by
  intro s hw
  refine ⟨length_frame hw, frame_last hw, frame_of_not_rot, fun hrot i hi => ?_⟩
  have hcol : 10 - i < (windowOf s.buf s.off).length := by rw [length_windowOf hw.2]; omega
  have hread := List.getElem?_eq_getElem hcol
  refine ⟨_, hread, ?_, toNat_rotate5_lt _⟩
  rw [getElem?_frame_of_rot hw hrot hi, hread, Option.map_some]

end Sys2Proof.Machine
end

section
/-! PROOFS. Scope: SCROLL, SCROLLTO, SETROT (spec/41_window.md R134 to R137). -/

namespace Sys2Proof.Machine

variable {s t u : State}

theorem State.windowDefined.afterWrite (h : s.windowDefined) (reg : BusReg) (bytes : List Byte) :
    (s.afterWrite reg bytes).windowDefined := by
  rw [State.afterWrite_eq]
  exact h

/-! ### The offset moved, then one push (R134, R135) -/

/-- What SCROLL and SCROLLTO share: the offset becomes `a` modulo `LEN`, and one push follows. -/
theorem push_setOff_floorMod (a : Int) (hlen : 11 ≤ s.buf.len) (hopen : s.busOpen = true) :
    ∃ t, push (s.setOff (floorMod a s.buf.len)) = .next t
      ∧ t.off < s.buf.len ∧ (s.buf.len : Int) ∣ a - t.off
      ∧ t.buf = s.buf ∧ t.rot = s.rot ∧ t.font = s.font ∧ s.PushedOnce t := by
  obtain ⟨hlt, hdvd⟩ := (floorMod_eq_iff (a := a) (by omega : 0 < s.buf.len)).1 rfl
  have hpush := (push_eq_next (s := s.setOff (floorMod a s.buf.len))).2 ⟨hopen, ⟨hlen, hlt⟩, rfl⟩
  obtain ⟨hbuf, hoff, hrot, hfont, hpushed⟩ := push_pushedOnce hpush
  exact ⟨_, hpush, by rwa [hoff], by rwa [hoff], hbuf, hrot, hfont, hpushed⟩

/-- Settles O36: SCROLL is the shared push from the old offset plus `d`. -/
theorem scrollMovesOffsetAndPushes : Obligations.ScrollMovesOffsetAndPushes := fun d s =>
  ⟨⟨rfl, rfl⟩, push_setOff_floorMod (s.off + d), fun hclosed => whenOpen_of_closed hclosed _⟩

/-- Settles O37: SCROLLTO is the shared push from `p`, the old offset not read. -/
theorem scrolltoSetsOffsetAndPushes : Obligations.ScrolltoSetsOffsetAndPushes := fun p _ =>
  ⟨⟨rfl, rfl⟩, push_setOff_floorMod p, fun hclosed => whenOpen_of_closed hclosed _⟩

/-! ### The offset after scrolling (R137) -/

theorem off_buf_of_exec_scroll {d : Int} (h : exec (.scroll d) s = .next t) :
    t.off = floorMod (s.off + d) s.buf.len ∧ t.buf = s.buf := by
  obtain ⟨-, -, -, hoff, hbuf⟩ := exec_next_registers h
  exact ⟨hoff, hbuf⟩

theorem off_scroll_neg_scroll {d : Int} (hs : s.off < s.buf.len)
    (h : exec (.scroll d) s = .next t) (h' : exec (.scroll (-d)) t = .next u) : u.off = s.off := by
  obtain ⟨hoff, hbuf⟩ := off_buf_of_exec_scroll h
  obtain ⟨hoff', -⟩ := off_buf_of_exec_scroll h'
  have hpos : 0 < s.buf.len := Nat.zero_lt_of_lt hs
  obtain ⟨-, hdvd⟩ := (floorMod_eq_iff hpos).1 hoff.symm
  rw [hoff', hbuf, floorMod_eq_iff hpos]
  refine ⟨hs, ?_⟩
  have hback : (t.off + -d - s.off : Int) = -(s.off + d - t.off) := by ring
  rw [hback]
  exact hdvd.neg_right

theorem windowDefined_of_scrolled {d : Int}
    (h : exec (.scroll d) s = .next t ∨ exec (.scrollto d) s = .next t) : t.windowDefined := by
  obtain h | h := h
  · obtain ⟨-, hw, rfl⟩ := exec_scroll_eq_next.1 h
    exact hw.afterWrite _ _
  · obtain ⟨-, hw, rfl⟩ := exec_scrollto_eq_next.1 h
    exact hw.afterWrite _ _

/-- Settles O38: the four properties hold one by one; in (d) the push has checked the offset. -/
theorem scrollAndFrameProperties : Obligations.ScrollAndFrameProperties := by
  refine ⟨?frame, ?mirror, ?restored, ?inRange⟩
  case frame => exact fun s hw => ⟨length_frame hw, getLast?_frame s⟩
  case mirror => exact fun c hc => rotate5_rotate5_of_lt hc
  case restored => exact fun d s t u hs h h' => off_scroll_neg_scroll hs h h'
  case inRange =>
    intro d s t h
    obtain ⟨-, hoff⟩ := windowDefined_of_scrolled h
    exact hoff

/-! ### The rotate flag (R136) -/

/-- Settles O39: SETROT leaves `State.setRot`, which touches no other field. -/
theorem setrotSetsFlagOnly : Obligations.SetrotSetsFlagOnly := fun r s =>
  ⟨⟨rfl, rfl⟩, _, exec_setrot_eq_next.2 rfl, s.setRot_rot r, s.setRot_buf r, s.setRot_off r,
    s.setRot_err r, s.setRot_font r, s.setRot_busOpen r, s.setRot_trace r, s.setRot_answers r,
    s.setRot_freeCount r, s.setRot_cfg r, s.setRot_port r⟩

end Sys2Proof.Machine
end

section
/-! PROOFS. Scope: WRSTR, LOADFONT (spec/42_font.md R150 to R154). -/

namespace Sys2Proof.Machine

variable {s : State} {text : List Nat} {x : Nat}

/-! ### The width of a text (R150 to R152) -/

theorem charColumns_space (space : Nat) (f : Font) : charColumns space f space = [0, 0, 0] := by
  simp [charColumns, glyphOf, List.replicate]

theorem charColumns_of_lookup_none {space ch : Nat} {f : Font} (h : fontLookup f ch = none) :
    charColumns space f ch = [0, 0, 0] := by
  simp [charColumns, glyphOf, h, List.replicate]

theorem charColumns_of_lookup_some {space ch : Nat} {f : Font} {g : Glyph} (hch : ch ≠ space)
    (h : fontLookup f ch = some g) : charColumns space f ch = g ++ [0] := by
  simp [charColumns, glyphOf, hch, h]

theorem textWidth_eq_sum (space : Nat) (f : Font) (text : List Nat) :
    textWidth space f text = (text.map fun ch => (charColumns space f ch).length).sum := by
  rw [← length_flatMap_charColumns, List.length_flatMap]

/-- Settles O42: the width is the sum of the lengths of the characters' columns, and these have the
lengths of R152 by the three cases of R150. -/
theorem textWidthIsColumnsWritten : Obligations.TextWidthIsColumnsWritten := by
  intro space f text
  refine ⟨?_, length_flatMap_charColumns space f text⟩
  rw [textWidth_eq_sum]
  congr 2
  funext ch
  by_cases hch : ch = space
  · rw [if_pos hch, hch, charColumns_space]
    rfl
  · rw [if_neg hch]
    split
    next hnone => rw [charColumns_of_lookup_none hnone]; rfl
    next g hsome => rw [charColumns_of_lookup_some hch hsome, List.length_append]; rfl

/-! ### Consecutive columns written, then one push -/

theorem Memory.read_setCols_of_outside {m : Memory} (h : m.wf) {cols : List Byte} {i : Nat}
    (hi : i < x ∨ x + cols.length ≤ i) : (m.setCols x cols).read i = m.read i := by
  rw [Memory.read_setCols h, if_neg (by omega)]

theorem Memory.getElem?_eq_read_setCols {m : Memory} (h : m.wf) {cols : List Byte} {i : Nat}
    (hi : i < cols.length) : cols[i]? = some ((m.setCols x cols).read (x + i)) := by
  rw [Memory.read_setCols h, if_pos (by omega), Nat.add_sub_cancel_left,
    List.getD_eq_getElem cols 0 hi, List.getElem?_eq_getElem hi]

/-- Growing keeps the window defined, so the push after the columns completes. -/
theorem push_setBuf_setCols (hw : s.windowDefined) (hopen : s.busOpen = true) (x : Nat)
    (cols : List Byte) :
    ∃ t, push (s.setBuf (s.buf.setCols x cols)) = .next t ∧ t.buf = s.buf.setCols x cols
      ∧ t.off = s.off ∧ t.rot = s.rot ∧ t.font = s.font ∧ s.PushedOnce t := by
  have hpush := (push_eq_next (s := s.setBuf (s.buf.setCols x cols))).2
    ⟨hopen, hw.setBuf (s.buf.le_len_setCols x cols), rfl⟩
  exact ⟨_, hpush, push_pushedOnce hpush⟩

/-! ### WRSTR (R151) -/

theorem len_textBuf (s : State) (text : List Nat) (x : Nat) :
    (textBuf s text x).len = if text = [] then s.buf.len
      else max s.buf.len (x + textWidth s.cfg.spaceCode s.font text) := by
  simp only [Memory.len_setCols, flatMap_charColumns_eq_nil, length_flatMap_charColumns]

theorem getElem?_eq_read_textBuf (h : s.buf.wf) {i : Nat}
    (hi : i < textWidth s.cfg.spaceCode s.font text) :
    (text.flatMap (charColumns s.cfg.spaceCode s.font))[i]? =
      some ((textBuf s text x).read (x + i)) := by
  rw [← length_flatMap_charColumns] at hi
  exact Memory.getElem?_eq_read_setCols h hi

theorem read_textBuf_of_outside (h : s.buf.wf) {i : Nat}
    (hi : i < x ∨ x + textWidth s.cfg.spaceCode s.font text ≤ i) :
    (textBuf s text x).read i = s.buf.read i := by
  rw [← length_flatMap_charColumns] at hi
  exact Memory.read_setCols_of_outside h hi

theorem fitsCap_zero (c : Config) : fitsCap c 0 = true := by
  unfold fitsCap
  cases c.bufCap <;> simp

/-- The empty text asks for no column, so it fits any capacity. -/
theorem fitsCap_textNeeds
    (h : text = [] ∨ fitsCap s.cfg (x + textWidth s.cfg.spaceCode s.font text) = true) :
    fitsCap s.cfg (textNeeds s text x) = true := by
  by_cases htext : text = []
  · rw [htext]
    exact fitsCap_zero s.cfg
  · rw [textNeeds_of_ne_nil htext]
    exact h.resolve_left htext

/-- Past both refusals WRSTR is one push of the text's columns. -/
theorem exec_wrstr_eq_push (hopen : s.busOpen = true)
    (hfits : fitsCap s.cfg (textNeeds s text x) = true) :
    exec (.wrstr text x) s = push (s.setBuf (textBuf s text x)) := by
  rw [textBuf, ← renderText_eq]
  exact (whenOpen_of_open hopen _).trans (whenFits_of_fits hfits _)

/-- Settles O41: the text is one run of consecutive columns, as many as its width; the gap columns
lie outside the run, past the old length. -/
theorem wrstrRendersAndPushesOnce : Obligations.WrstrRendersAndPushesOnce := by
  intro text x s hwf
  refine ⟨⟨rfl, rfl⟩, ?completes, fun hclosed => whenOpen_of_closed hclosed _, ?capacity⟩
  case completes =>
    intro hw hopen hfits
    obtain ⟨t, hpush, hbuf, hrest⟩ := push_setBuf_setCols hw hopen x
      (text.flatMap (charColumns s.cfg.spaceCode s.font))
    refine ⟨t, (exec_wrstr_eq_push hopen (fitsCap_textNeeds hfits)).trans hpush, ?_⟩
    rw [hbuf]
    have hgap (i : Nat) (hlen : s.buf.len ≤ i) (hi : i < x) : (textBuf s text x).read i = 0 :=
      (read_textBuf_of_outside hwf (.inl hi)).trans (Memory.read_of_ge hwf hlen)
    exact ⟨len_textBuf s text x, fun i hi => getElem?_eq_read_textBuf hwf hi,
      fun i hi => read_textBuf_of_outside hwf hi, hgap, hrest⟩
  case capacity =>
    intro hopen htext hcap
    rw [← textNeeds_of_ne_nil htext] at hcap
    exact (whenOpen_of_open hopen _).trans (whenFits_of_not hcap _)

/-! ### LOADFONT (R154) -/

/-- LOADFONT writes `FONT` alone. -/
theorem State.setFont_frame (s : State) (f : Font) :
    (s.setFont f).buf = s.buf ∧ (s.setFont f).off = s.off ∧ (s.setFont f).rot = s.rot
      ∧ (s.setFont f).err = s.err ∧ (s.setFont f).busOpen = s.busOpen
      ∧ (s.setFont f).trace = s.trace ∧ s.Quiet (s.setFont f) :=
  ⟨rfl, rfl, rfl, rfl, rfl, rfl, rfl, rfl, rfl, rfl⟩

/-- Settles O57: a font table is its own canonical list, so the font becomes exactly the operand. -/
theorem loadfontOfATable : Obligations.LoadfontOfATable := fun _ s hord =>
  ⟨⟨rfl, rfl⟩, _, exec_loadfont_eq_next.2 rfl, fontOfEntries_of_ordered hord, s.setFont_frame _⟩

end Sys2Proof.Machine
end

section
/-! PROOFS. Scope: GRAPH (spec/43_graph.md R165 to R170). -/

namespace Sys2Proof.Machine

variable {s : State} {values vs : List Rat} {low high : Option Rat} {v lo hi : Rat}

/-! ### The mask of a level (R167) -/

theorem graphMask_of_le_one {n : Int} (h : n ≤ 1) : graphMask n = 0 := if_pos h

theorem graphMask_of_five_le {n : Int} (h : 5 ≤ n) : graphMask n = 31 := by
  rw [graphMask, if_neg (by omega), if_neg (by omega), if_neg (by omega), if_neg (by omega)]

/-- Settles O48: the two open-ended rows of the table, and its three single levels by evaluation. -/
theorem graphMaskTable : Obligations.GraphMaskTable := fun _ =>
  ⟨graphMask_of_le_one, fun h => h ▸ rfl, fun h => h ▸ rfl, fun h => h ▸ rfl,
    graphMask_of_five_le⟩

/-! ### The level of a sample (R166) -/

theorem truncRat_eq_floor {q : Rat} (h : 0 ≤ q) : truncRat q = ⌊q⌋ := by
  rw [Rat.floor_def', truncRat, Int.tdiv_eq_ediv_of_nonneg (Rat.num_nonneg.2 h)]

theorem truncRat_neg (q : Rat) : truncRat (-q) = -truncRat q := Int.neg_tdiv ..

theorem truncRat_eq_ceil {q : Rat} (h : q ≤ 0) : truncRat q = ⌈q⌉ := by
  have hneg : truncRat (-q) = ⌊-q⌋ := truncRat_eq_floor (neg_nonneg.2 h)
  rwa [truncRat_neg, Int.floor_neg, neg_inj] at hneg

/-- The degenerate range lights every row (R169). -/
theorem graphLevel_of_span_eq_zero (h : hi - lo = 0) (v : Rat) : graphLevel lo hi v = 5 := if_pos h

theorem graphLevel_of_span_ne_zero (h : hi - lo ≠ 0) (v : Rat) :
    graphLevel lo hi v = truncRat ((v - lo) / (hi - lo) * 5) := if_neg h

/-- Settles O46: truncation toward zero is the floor of a quotient that is not negative, the ceiling
of one that is not positive. -/
theorem graphLevelTruncates : Obligations.GraphLevelTruncates := by
  intro low high v
  refine ⟨fun hspan => graphLevel_of_span_eq_zero hspan v, fun hspan => ?_⟩
  rw [graphLevel_of_span_ne_zero hspan]
  refine ⟨fun hnonneg => ?_, fun hnonpos => ?_⟩
  · rw [truncRat_eq_floor hnonneg]
    exact ⟨Int.floor_le _, Int.lt_floor_add_one _⟩
  · rw [truncRat_eq_ceil hnonpos]
    exact ⟨Int.le_ceil _, sub_lt_iff_lt_add.2 (Int.ceil_lt_add_one _)⟩

/-! ### The bounds of a graph (R168) -/

theorem min?_eq_leastOf (v : Rat) (vs : List Rat) : (v :: vs).min? = some (leastOf v vs) := by
  induction vs generalizing v with
  | nil => rfl
  | cons u vs ih =>
    rw [leastOf, ← ih, List.min?_cons', List.min?_cons', List.foldl_cons, min_comm, min_def_lt]

theorem max?_eq_greatestOf (v : Rat) (vs : List Rat) :
    (v :: vs).max? = some (greatestOf v vs) := by
  induction vs generalizing v with
  | nil => rfl
  | cons u vs ih =>
    rw [greatestOf, ← ih, List.max?_cons', List.max?_cons', List.foldl_cons, max_def_lt]

/-- There is exactly one low bound: the operand, or the least sample. -/
theorem isLowBound_cons_iff : isLowBound (v :: vs) low lo ↔ lo = low.getD (leastOf v vs) := by
  rw [isLowBound, ← List.min?_eq_some_iff, min?_eq_leastOf]
  cases low <;> simp [eq_comm]

/-- There is exactly one high bound: the operand, or the greatest sample. -/
theorem isHighBound_cons_iff : isHighBound (v :: vs) high hi ↔ hi = high.getD (greatestOf v vs) := by
  rw [isHighBound, ← List.max?_eq_some_iff, max?_eq_greatestOf]
  cases high <;> simp [eq_comm]

/-- Bounds that meet R168 are those the columns are scaled by. -/
theorem graphColumns_eq_map (hne : values ≠ []) (hlo : isLowBound values low lo)
    (hhi : isHighBound values high hi) :
    graphColumns values low high = values.map fun u => graphMask (graphLevel lo hi u) := by
  obtain ⟨v, vs, rfl⟩ := List.exists_cons_of_ne_nil hne
  rw [isLowBound_cons_iff.1 hlo, isHighBound_cons_iff.1 hhi]
  rfl

theorem exists_bounds (hne : values ≠ []) (low high : Option Rat) :
    ∃ lo hi, isLowBound values low lo ∧ isHighBound values high hi := by
  obtain ⟨v, vs, rfl⟩ := List.exists_cons_of_ne_nil hne
  exact ⟨_, _, isLowBound_cons_iff.2 rfl, isHighBound_cons_iff.2 rfl⟩

/-! ### GRAPH (R168) -/

/-- The column memory after a graph: the masks of its samples from column 0 on. -/
abbrev graphBuf (s : State) (values : List Rat) (low high : Option Rat) : Memory :=
  s.buf.setCols 0 (graphColumns values low high)

theorem len_graphBuf (s : State) (values : List Rat) (low high : Option Rat) :
    (graphBuf s values low high).len = max s.buf.len values.length := by
  rw [Memory.len_setCols, length_graphColumns, Nat.zero_add]
  split
  next hnil =>
    rw [← length_graphColumns values low high, hnil, List.length_nil, Nat.max_zero]
  next => rfl

theorem read_graphBuf_of_sample (h : s.buf.wf) (hlo : isLowBound values low lo)
    (hhi : isHighBound values high hi) {i : Nat} (hv : values[i]? = some v) :
    (graphBuf s values low high).read i = graphMask (graphLevel lo hi v) := by
  obtain ⟨hlt, -⟩ := List.getElem?_eq_some_iff.1 hv
  have hne : values ≠ [] := List.ne_nil_of_length_pos (Nat.zero_lt_of_lt hlt)
  have hread : (graphColumns values low high)[i]? =
      some ((graphBuf s values low high).read (0 + i)) :=
    Memory.getElem?_eq_read_setCols h (by rwa [length_graphColumns])
  rw [graphColumns_eq_map hne hlo hhi, List.getElem?_map, hv, Nat.zero_add] at hread
  exact (Option.some.inj hread).symm

theorem read_graphBuf_of_ge (h : s.buf.wf) {i : Nat} (hi : values.length ≤ i) :
    (graphBuf s values low high).read i = s.buf.read i :=
  Memory.read_setCols_of_outside h (.inr (by rwa [length_graphColumns, Nat.zero_add]))

/-- Past both refusals GRAPH completes: one push of the graph's columns. -/
theorem exec_graph_completes (hw : s.windowDefined) (hopen : s.busOpen = true)
    (hfits : fitsCap s.cfg values.length = true) (low high : Option Rat) :
    ∃ t, exec (.graph values low high) s = .next t ∧ t.buf = graphBuf s values low high
      ∧ t.off = s.off ∧ t.rot = s.rot ∧ t.font = s.font ∧ s.PushedOnce t := by
  have hexec : exec (.graph values low high) s = push (s.setBuf (graphBuf s values low high)) :=
    (whenOpen_of_open hopen _).trans (whenFits_of_fits hfits _)
  rw [hexec]
  exact push_setBuf_setCols hw hopen 0 (graphColumns values low high)

/-- Settles O45: the graph is one run of consecutive columns from column 0, one per sample. -/
theorem graphRendersAndPushesOnce : Obligations.GraphRendersAndPushesOnce := by
  intro values low high s hwf
  refine ⟨⟨rfl, rfl⟩, ?completes, fun hclosed => whenOpen_of_closed hclosed _,
    fun hopen hcap => (whenOpen_of_open hopen _).trans (whenFits_of_not hcap _)⟩
  case completes =>
    intro hw hopen hfits
    obtain ⟨t, hexec, hbuf, hrest⟩ := exec_graph_completes hw hopen hfits low high
    refine ⟨t, hexec, ?_⟩
    rw [hbuf]
    have hsamples (hne : values ≠ []) : ∃ lo hi, isLowBound values low lo
        ∧ isHighBound values high hi ∧ ∀ i v, values[i]? = some v →
          (graphBuf s values low high).read i = graphMask (graphLevel lo hi v) := by
      obtain ⟨lo, hi, hlo, hhi⟩ := exists_bounds hne low high
      exact ⟨lo, hi, hlo, hhi, fun i v hv => read_graphBuf_of_sample hwf hlo hhi hv⟩
    exact ⟨len_graphBuf s values low high, hsamples, fun i hi => read_graphBuf_of_ge hwf hi, hrest⟩

/-! ### The degenerate range (R169) -/

theorem read_graphBuf_of_equal_bounds (h : s.buf.wf) {q : Rat} (hlo : isLowBound values low q)
    (hhi : isHighBound values high q) {i : Nat} (hi : i < values.length) :
    (graphBuf s values low high).read i = 31 := by
  rw [read_graphBuf_of_sample h hlo hhi (List.getElem?_eq_getElem hi),
    graphLevel_of_span_eq_zero (sub_self q)]
  exact graphMask_of_five_le le_rfl

/-- The sample of a constant graph is both its bounds. -/
theorem bounds_replicate (v : Rat) (n : Nat) :
    isLowBound (List.replicate (n + 1) v) none v ∧ isHighBound (List.replicate (n + 1) v) none v := by
  have hmem : v ∈ List.replicate (n + 1) v := List.mem_replicate.2 ⟨n.succ_ne_zero, rfl⟩
  exact ⟨.inr ⟨rfl, hmem, fun _ hu => (List.eq_of_mem_replicate hu).ge⟩,
    .inr ⟨rfl, hmem, fun _ hu => (List.eq_of_mem_replicate hu).le⟩⟩

/-- Settles O49: with equal bounds the span is 0, so every sample has level 5 and the full mask. -/
theorem degenerateRangeFillsColumns : Obligations.DegenerateRangeFillsColumns := by
  refine ⟨fun values low high q s hwf hw hopen hfits _ hlo hhi => ?_, bounds_replicate⟩
  obtain ⟨t, hexec, hbuf, hrest⟩ := exec_graph_completes hw hopen hfits low high
  refine ⟨t, hexec, ?_⟩
  rw [hbuf]
  exact ⟨fun i hi => read_graphBuf_of_equal_bounds hwf hlo hhi hi,
    fun i hi => read_graphBuf_of_ge hwf hi, len_graphBuf s values low high, hrest⟩

end Sys2Proof.Machine
end

section
/-! PROOFS. Scope: the bus write and INIT, SETMODE, SETBRT, UPDATE, IOERR (spec/44_driver.md R180 to
R186), the table of bus writes (R188, 30_encoding.md R88) and failed writes (R187). -/

namespace Sys2Proof.Machine

variable {s t : State} {i : Instr} {old : Nat} {reg : BusReg} {bytes : List Byte}

/-! ### The accounting of one write, by the transport's answer (R180) -/

theorem errAfter_of_ok (h : s.nextAnswer = .ok) (old : Nat) : errAfter s old = old := by
  simp [errAfter, h]

theorem errAfter_of_fail (h : s.nextAnswer = .fail) (old : Nat) :
    errAfter s old = saturateErr s.cfg (old + 1) :=
  if_pos h

theorem writeEvents_of_ok (h : s.nextAnswer = .ok) :
    writeEvents s old reg bytes = [.write s.cfg.devAddr (regNumber s.cfg reg) bytes .ok] := by
  simp [writeEvents, h]

theorem writeEvents_of_fail_of_ne (h : s.nextAnswer = .fail) (hold : old ≠ 9) :
    writeEvents s old reg bytes = [.write s.cfg.devAddr (regNumber s.cfg reg) bytes .fail] := by
  simp [writeEvents, h, hold]

theorem writeEvents_nine_of_fail (h : s.nextAnswer = .fail) :
    writeEvents s 9 reg bytes =
      [.write s.cfg.devAddr (regNumber s.cfg reg) bytes .fail, .notice] := by
  simp [writeEvents, h]

theorem State.answered_afterWrite (s : State) (reg : BusReg) (bytes : List Byte) :
    s.Answered (s.afterWrite reg bytes) :=
  ⟨s.afterWrite_answers reg bytes, s.afterWrite_freeCount reg bytes, s.afterWrite_cfg reg bytes,
    s.afterWrite_port reg bytes⟩

/-- A bus write on an open bus completes; it changes the trace, `ERR` and the environment's answers
alone. -/
theorem busWrite_completes (reg : BusReg) (bytes : List Byte) (hopen : s.busOpen = true) :
    ∃ t, busWrite reg bytes s = .next t
      ∧ t.trace = s.trace ++ writeEvents s s.err reg bytes ∧ t.err = errAfter s s.err
      ∧ t.buf = s.buf ∧ t.off = s.off ∧ t.rot = s.rot ∧ t.font = s.font ∧ t.busOpen = s.busOpen
      ∧ s.Answered t :=
  ⟨_, busWrite_eq_next.2 ⟨hopen, rfl⟩, s.afterWrite_trace reg bytes, s.afterWrite_err reg bytes,
    s.afterWrite_buf reg bytes, s.afterWrite_off reg bytes, s.afterWrite_rot reg bytes,
    s.afterWrite_font reg bytes, s.afterWrite_busOpen reg bytes, s.answered_afterWrite reg bytes⟩

/-- Settles O55: what `busWrite_completes` gives, read off for each answer, counter and count. -/
theorem busWriteAccounting : Obligations.BusWriteAccounting := by
  intro reg bytes s
  refine ⟨fun hclosed => whenOpen_of_closed hclosed _, fun hopen => ?_⟩
  obtain ⟨t, hwrite, htrace, herr, hframe⟩ := busWrite_completes reg bytes hopen
  refine ⟨t, hwrite, fun hok => ⟨?okErr, ?okTrace⟩,
    fun hfail => ⟨fun hmax => ?unbounded, fun m hmax => ?bounded, fun hne => ?silent,
      fun hnine => ?notice⟩, hframe⟩
  case okErr => rw [herr, errAfter_of_ok hok]
  case okTrace => rw [htrace, writeEvents_of_ok hok]
  case unbounded => rw [herr, errAfter_of_fail hfail, saturateErr_of_none hmax]
  case bounded => rw [herr, errAfter_of_fail hfail, saturateErr_of_some hmax]
  case silent => rw [htrace, writeEvents_of_fail_of_ne hfail hne]
  case notice => rw [htrace, hnine, writeEvents_nine_of_fail hfail]

/-! ### The five commands of the driver (R182 to R186) -/

/-- A legal counter holds the first failure: its maximum is at least 10 (R180). -/
theorem saturateErr_one {c : Config} (h : c.wf) : saturateErr c 1 = 1 :=
  (saturateErr_exact h 1).resolve_right fun ⟨_, hlt⟩ => absurd hlt (by decide)

/-- Settles O50: INIT is one bus write from `State.opened`, whose count is 0. -/
theorem initOpensAndResets : Obligations.InitOpensAndResets := by
  intro s
  refine ⟨⟨rfl, rfl⟩, ?_⟩
  obtain ⟨t, hexec, htrace, herr, hbuf, hoff, hrot, hfont, hopen, hanswered⟩ :=
    busWrite_completes (s := s.opened) .modeSet [s.cfg.mode5x11] s.opened_busOpen
  rw [State.opened_err, errAfter_opened] at herr
  refine ⟨t, hexec, ?trace, hopen, ?columns, ?len, ?wf, hoff, hrot, hfont, ?ok, ?fail, hanswered⟩
  case trace => simp [htrace]
  case columns => rw [hbuf, State.opened_buf, Memory.columns_blank]
  case len => rw [hbuf, State.opened_buf, Memory.len_blank]
  case wf =>
    rw [hbuf]
    exact Memory.wf_blank
  case ok => exact fun hok => herr.trans (errAfter_of_ok hok 0)
  case fail =>
    intro hcfg hfail
    rw [herr, errAfter_of_fail hfail, saturateErr_one hcfg]

/-- Settles O51: SETMODE is the bus write of the mode constant, the operand not used. -/
theorem setmodeWritesConstant : Obligations.SetmodeWritesConstant := fun _ s =>
  ⟨⟨rfl, rfl⟩, busWrite_completes .modeSet [s.cfg.mode5x11],
    fun hclosed => whenOpen_of_closed hclosed _⟩

/-- Settles O52: SETBRT is the bus write of its operand. -/
theorem setbrtWritesLevel : Obligations.SetbrtWritesLevel := fun b _ =>
  ⟨⟨rfl, rfl⟩, busWrite_completes .brightnessSet [b], fun hclosed => whenOpen_of_closed hclosed _⟩

/-- Settles O53: UPDATE is one push, which completes where the window is defined. -/
theorem updatePushesFrame : Obligations.UpdatePushesFrame := by
  intro s
  refine ⟨⟨rfl, rfl⟩, fun hw hopen => ?_, fun hclosed => whenOpen_of_closed hclosed _⟩
  have hpush := push_eq_next.2 ⟨hopen, hw, rfl⟩
  exact ⟨_, hpush, push_pushedOnce hpush⟩

/-- Settles O54: IOERR appends its response to the trace and touches no other field. -/
theorem ioerrResponds : Obligations.IoerrResponds := fun s =>
  ⟨⟨rfl, rfl⟩, _, exec_ioerr_eq_next.2 rfl, s.emit_trace _, s.emit_err _, s.emit_buf _,
    s.emit_off _, s.emit_rot _, s.emit_font _, s.emit_busOpen _, s.emit_answers _,
    s.emit_freeCount _, s.emit_cfg _, s.emit_port _⟩

/-! ### The events of a command (R188, R88) -/

/-- The events of a command that come before its bus write, or that it has instead of one. -/
def eventsBeforeWrite (s : State) : Instr → List Event
  | .init => [.opened s.cfg.busChannel]
  | .buflen => [.resp s.buf.len]
  | .ioerr => [.resp s.err]
  | _ => []

theorem beforeWrite_trace (s : State) (i : Instr) :
    (s.beforeWrite i).trace = s.trace ++ eventsBeforeWrite s i := by
  cases i with
  | init | buflen | ioerr => rfl
  | _ => exact (List.append_nil s.trace).symm

theorem filter_isWrite_eventsBeforeWrite (s : State) (i : Instr) :
    (eventsBeforeWrite s i).filter Event.isWrite = [] := by
  cases i <;> rfl

theorem filter_isOpened_eventsBeforeWrite (s : State) (i : Instr) :
    (eventsBeforeWrite s i).filter Event.isOpened =
      if i = .init then [.opened s.cfg.busChannel] else [] := by
  cases i <;> rfl

theorem filter_isResp_eventsBeforeWrite (s : State) (i : Instr) :
    (eventsBeforeWrite s i).filter Event.isResp =
      if i = .buflen then [.resp s.buf.len] else if i = .ioerr then [.resp s.err] else [] := by
  cases i <;> rfl

theorem filter_isWrite_writeEvents (s : State) (old : Nat) (reg : BusReg) (bytes : List Byte) :
    (writeEvents s old reg bytes).filter Event.isWrite =
      [.write s.cfg.devAddr (regNumber s.cfg reg) bytes s.nextAnswer] := by
  unfold writeEvents
  split <;> rfl

theorem filter_isOpened_writeEvents (s : State) (old : Nat) (reg : BusReg) (bytes : List Byte) :
    (writeEvents s old reg bytes).filter Event.isOpened = [] := by
  unfold writeEvents
  split <;> rfl

theorem filter_isResp_writeEvents (s : State) (old : Nat) (reg : BusReg) (bytes : List Byte) :
    (writeEvents s old reg bytes).filter Event.isResp = [] := by
  unfold writeEvents
  split <;> rfl

theorem nextAnswer_beforeWrite (s : State) (i : Instr) :
    (s.beforeWrite i).nextAnswer = s.nextAnswer := by
  cases i <;> rfl

/-- A bus write changes neither the frame nor the parameters, so the payload it carried is that of the
state after it. -/
theorem payloadOf_afterWrite (i : Instr) (s : State) (reg : BusReg) (bytes : List Byte) :
    payloadOf i (s.afterWrite reg bytes) = payloadOf i s := by
  cases i with
  | init | setmode m => simp only [payloadOf, State.afterWrite_cfg]
  | wrstr text x | graph values low high | scroll d | scrollto p | update =>
    exact s.afterWrite_frame reg bytes
  | _ => rfl

/-- Settles O17: the command's own events hold no write, and those of its bus write hold exactly one,
no `Open` and no response. -/
theorem busWritesPerCommand : Obligations.BusWritesPerCommand := by
  intro i s t h
  obtain ⟨hreg, rfl⟩ | ⟨reg, hreg, rfl⟩ := exec_next_cases h
  · rw [hreg]
    exact ⟨_, beforeWrite_trace s i, filter_isWrite_eventsBeforeWrite s i,
      filter_isOpened_eventsBeforeWrite s i, filter_isResp_eventsBeforeWrite s i⟩
  · rw [hreg, State.afterWrite_trace, beforeWrite_trace, List.append_assoc]
    refine ⟨_, rfl, ?write, ?opened, ?resp⟩ <;> rw [List.filter_append]
    case write =>
      rw [filter_isWrite_eventsBeforeWrite, filter_isWrite_writeEvents, beforeWrite_cfg,
        nextAnswer_beforeWrite, payloadOf_afterWrite, List.nil_append]
    case opened =>
      rw [filter_isOpened_eventsBeforeWrite, filter_isOpened_writeEvents, List.append_nil]
    case resp => rw [filter_isResp_eventsBeforeWrite, filter_isResp_writeEvents, List.append_nil]

/-! ### Other answers of the transport (R187) -/

/-- The state with other answers of the transport to come. -/
def State.withAnswers (s : State) (answers : List BusResult) (n : Nat) : State :=
  { s with answers := answers, freeCount := n }

theorem beforeWrite_withAnswers (s : State) (i : Instr) (answers : List BusResult) (n : Nat) :
    (s.withAnswers answers n).beforeWrite i = (s.beforeWrite i).withAnswers answers n := by
  cases i <;> rfl

/-- No refusal and no fault depends on the transport's answers. -/
theorem exec_withAnswers_completes (h : exec i s = .next t) (answers : List BusResult) (n : Nat) :
    ∃ u, exec i (s.withAnswers answers n) = .next u := by
  cases i with
  | init => exact ⟨_, exec_init_eq_next.2 rfl⟩
  | setmode m =>
    obtain ⟨hopen, -⟩ := exec_setmode_eq_next.1 h
    exact ⟨_, exec_setmode_eq_next.2 ⟨hopen, rfl⟩⟩
  | setbrt b =>
    obtain ⟨hopen, -⟩ := exec_setbrt_eq_next.1 h
    exact ⟨_, exec_setbrt_eq_next.2 ⟨hopen, rfl⟩⟩
  | wrstr text x =>
    obtain ⟨hopen, hfits, hw, -⟩ := exec_wrstr_eq_next.1 h
    exact ⟨_, exec_wrstr_eq_next.2 ⟨hopen, hfits, hw, rfl⟩⟩
  | graph values low high =>
    obtain ⟨hopen, hfits, hw, -⟩ := exec_graph_eq_next.1 h
    exact ⟨_, exec_graph_eq_next.2 ⟨hopen, hfits, hw, rfl⟩⟩
  | scroll d =>
    obtain ⟨hopen, hw, -⟩ := exec_scroll_eq_next.1 h
    exact ⟨_, exec_scroll_eq_next.2 ⟨hopen, hw, rfl⟩⟩
  | scrollto p =>
    obtain ⟨hopen, hw, -⟩ := exec_scrollto_eq_next.1 h
    exact ⟨_, exec_scrollto_eq_next.2 ⟨hopen, hw, rfl⟩⟩
  | update =>
    obtain ⟨hopen, hw, -⟩ := exec_update_eq_next.1 h
    exact ⟨_, exec_update_eq_next.2 ⟨hopen, hw, rfl⟩⟩
  | setcol x v =>
    obtain ⟨hfits, -⟩ := exec_setcol_eq_next.1 h
    exact ⟨_, exec_setcol_eq_next.2 ⟨hfits, rfl⟩⟩
  | setpix x y v =>
    obtain ⟨hfits, -⟩ := exec_setpix_eq_next.1 h
    exact ⟨_, exec_setpix_eq_next.2 ⟨hfits, rfl⟩⟩
  | setbuf cols =>
    obtain ⟨hlen, hfits, -⟩ := exec_setbuf_eq_next.1 h
    exact ⟨_, exec_setbuf_eq_next.2 ⟨hlen, hfits, rfl⟩⟩
  | buflen | clear | loadfont f | ioerr | setrot r => exact ⟨_, rfl⟩

/-- Settles O21: under any answers the command completes, and the registers it leaves are those it had
before its bus write, where no answer has been read yet. -/
theorem failuresUndoNothing : Obligations.FailuresUndoNothing := by
  intro i s t answers n h
  obtain ⟨u, hu⟩ := exec_withAnswers_completes h answers n
  obtain ⟨hrot, hfont, hopen, hoff, hbuf⟩ := exec_next_registers h
  obtain ⟨hrot', hfont', hopen', hoff', hbuf'⟩ := exec_next_registers hu
  rw [beforeWrite_withAnswers] at hrot' hfont' hopen' hoff' hbuf'
  exact ⟨u, hu, hbuf'.trans hbuf.symm, hoff'.trans hoff.symm, hrot'.trans hrot.symm,
    hfont'.trans hfont.symm, hopen'.trans hopen.symm⟩

end Sys2Proof.Machine
end

section
/-! PROOFS. Scope: the refusals (spec/60_exceptions.md R204, R209) and the conditions a completed
command raises (R200, R206). -/

namespace Sys2Proof.Machine

variable {s t : State} {i : Instr} {r : Refusal} {o : Outcome}

/-! ### What the guards refuse (R63, R180) -/

theorem next_ne_refused (u : State) (r : Refusal) : (.next u : Outcome) ≠ .refused r := by simp

theorem whenOpen_eq_refused :
    whenOpen s o = .refused r ↔
      s.busOpen = false ∧ r = .busNotOpen ∨ s.busOpen = true ∧ o = .refused r := by
  cases h : s.busOpen <;> simp [whenOpen, h, eq_comm (a := r)]

theorem fitsCap_eq_false_iff {c : Config} {n : Nat} :
    fitsCap c n = false ↔ ∃ cap, c.bufCap = some cap ∧ cap < n := by
  cases h : c.bufCap <;> simp [fitsCap, h]

theorem whenFits_eq_refused {n : Nat} :
    whenFits s n o = .refused r ↔
      (∃ cap, s.cfg.bufCap = some cap ∧ cap < n) ∧ r = .capacity
        ∨ fitsCap s.cfg n = true ∧ o = .refused r := by
  rw [← fitsCap_eq_false_iff]
  cases h : fitsCap s.cfg n <;> simp [whenFits, h, eq_comm (a := r)]

theorem busWrite_eq_refused {reg : BusReg} {bytes : List Byte} :
    busWrite reg bytes s = .refused r ↔ s.busOpen = false ∧ r = .busNotOpen := by
  simp [busWrite, whenOpen_eq_refused]

/-- A push in a state without a window is a fault, not a refusal. -/
theorem push_eq_refused : push s = .refused r ↔ s.busOpen = false ∧ r = .busNotOpen := by
  unfold push
  rw [whenOpen_eq_refused]
  split <;> simp

/-! ### A refusal of a command is one of the list (R204) -/

/-- The seven bus-writing commands other than INIT (R209). -/
abbrev busWritersButInit : List Op :=
  [.setmode, .setbrt, .scroll, .scrollto, .wrstr, .graph, .update]

theorem refusalListed_of_closed (hi : i.op ∈ busWritersButInit)
    (h : s.busOpen = false ∧ r = .busNotOpen) : refusalListed i s r := by
  obtain ⟨hclosed, hr⟩ := h
  exact .inr (.inl ⟨hr, hclosed, hi⟩)

theorem refusalListed_of_whenFits (ho : o = .refused r → refusalListed i s r)
    (h : whenFits s (askedLength s i) o = .refused r) : refusalListed i s r := by
  obtain ⟨hcap, hr⟩ | ⟨-, hr⟩ := whenFits_eq_refused.1 h
  · exact .inr (.inr ⟨hr, hcap⟩)
  · exact ho hr

/-- WRSTR and GRAPH: the bus, then the capacity, then the push. -/
theorem refusalListed_of_render {m : Memory} (hi : i.op ∈ busWritersButInit)
    (h : whenOpen s (whenFits s (askedLength s i) (push (s.setBuf m))) = .refused r) :
    refusalListed i s r := by
  obtain hclosed | ⟨-, hr⟩ := whenOpen_eq_refused.1 h
  · exact refusalListed_of_closed hi hclosed
  · refine refusalListed_of_whenFits (fun hpush => ?_) hr
    exact refusalListed_of_closed hi (push_eq_refused (s := s.setBuf m).1 hpush)

theorem textNeeds_eq_askedLength (s : State) (text : List Nat) (x : Nat) :
    textNeeds s text x = askedLength s (.wrstr text x) := by
  simp [textNeeds, askedLength]

theorem refusalListed_of_exec (h : exec i s = .refused r) : refusalListed i s r := by
  cases i with
  | init => exact absurd (busWrite_eq_refused (s := s.opened).1 h).1 (by simp)
  | setmode m | setbrt b =>
    exact refusalListed_of_closed (by simp [Instr.op]) (busWrite_eq_refused.1 h)
  | scroll d =>
    exact refusalListed_of_closed (by simp [Instr.op])
      (push_eq_refused (s := s.setOff (floorMod (s.off + d) s.buf.len)).1 h)
  | scrollto p =>
    exact refusalListed_of_closed (by simp [Instr.op])
      (push_eq_refused (s := s.setOff (floorMod p s.buf.len)).1 h)
  | update => exact refusalListed_of_closed (by simp [Instr.op]) (push_eq_refused.1 h)
  | wrstr text x =>
    rw [exec, execWrstr, textNeeds_eq_askedLength] at h
    exact refusalListed_of_render (by simp [Instr.op]) h
  | graph values low high => exact refusalListed_of_render (by simp [Instr.op]) h
  | setcol x v | setpix x y v =>
    exact refusalListed_of_whenFits (fun hr => absurd hr (next_ne_refused _ r)) h
  | setbuf cols =>
    rw [exec, execSetbuf] at h
    split at h
    next hshort => exact .inl ⟨by simpa using h.symm, cols, rfl, hshort⟩
    next => exact refusalListed_of_whenFits (fun hr => absurd hr (next_ne_refused _ r)) h
  | buflen | clear | loadfont f | ioerr | setrot b => exact absurd h (next_ne_refused _ r)

/-! ### A case of the list is refused (R204) -/

theorem exec_setbuf_of_short {cols : List Byte} (h : cols.length < 11) :
    exec (.setbuf cols) s = .refused .shortBuffer :=
  if_pos h

theorem exec_of_closed (hopen : s.busOpen = false) (hi : i.op ∈ busWritersButInit) :
    exec i s = .refused .busNotOpen := by
  cases i with
  | setmode m | setbrt b | wrstr text x | graph values low high | update =>
    exact whenOpen_of_closed hopen _
  | scroll d | scrollto p => exact push_eq_refused.2 ⟨hopen, rfl⟩
  | _ => simp [Instr.op] at hi

/-- Which refusal it is depends on the guards before the capacity's. -/
theorem exists_refused_of_cap_lt {cap : Nat} (hcap : s.cfg.bufCap = some cap)
    (hn : cap < askedLength s i) : ∃ r, exec i s = .refused r := by
  obtain ⟨hsetcol, hsetpix, hsetbuf, hrender⟩ := capacityRefusals s cap hcap
  cases i with
  | setcol x v => exact ⟨_, hsetcol x v (Nat.le_of_lt_succ hn)⟩
  | setpix x y v => exact ⟨_, hsetpix x y v (Nat.le_of_lt_succ hn)⟩
  | setbuf cols =>
    obtain hshort | hlen := Nat.lt_or_ge cols.length 11
    · exact ⟨_, exec_setbuf_of_short hshort⟩
    · exact ⟨_, hsetbuf cols hlen hn⟩
  | wrstr text x =>
    cases hopen : s.busOpen with
    | false => exact ⟨_, exec_of_closed hopen (by simp [Instr.op])⟩
    | true =>
      have htext : text ≠ [] := by
        rintro rfl
        exact absurd hn (Nat.not_lt_zero cap)
      rw [askedLength, if_neg htext] at hn
      obtain ⟨hwrstr, -⟩ := hrender hopen
      exact ⟨_, hwrstr text x htext hn⟩
  | graph values low high =>
    cases hopen : s.busOpen with
    | false => exact ⟨_, exec_of_closed hopen (by simp [Instr.op])⟩
    | true =>
      obtain ⟨-, hgraph⟩ := hrender hopen
      exact ⟨_, hgraph values low high hn⟩
  | _ => exact absurd hn (Nat.not_lt_zero cap)

theorem exists_refused_of_listed (h : refusalListed i s r) : ∃ r, exec i s = .refused r := by
  obtain ⟨-, cols, rfl, hshort⟩ | ⟨-, hopen, hi⟩ | ⟨-, cap, hcap, hn⟩ := h
  · exact ⟨_, exec_setbuf_of_short hshort⟩
  · exact ⟨_, exec_of_closed hopen hi⟩
  · exact exists_refused_of_cap_lt hcap hn

/-! ### The refusals of a step (R87, R204) -/

theorem step_eq_refused :
    step s = .refused r ↔ ∃ c, s.port.head? = some c
      ∧ ((∃ why, readSubmission c = .error why ∧ r = .invalidPacket why)
        ∨ ∃ i, readSubmission c = .ok i ∧ exec i s.accept = .refused r) := by
  unfold step
  cases hp : s.port with
  | nil => simp
  | cons c rest => cases hr : readSubmission c <;> simp [hr, eq_comm (a := r)]

/-- An abstract command is never invalid, so an unreadable submission is an invalid packet. -/
theorem readSubmission_eq_error {c : Submission} {why : PacketError}
    (h : readSubmission c = .error why) : ∃ p, c = .packet p ∧ packetInvalid p := by
  cases c with
  | packet p => exact ⟨p, rfl, (invalidPacketsExactly.1 p).1 ⟨why, h⟩⟩
  | command i => simp [readSubmission] at h

/-- Settles O20: a command by the guards it meets, a step by its inversion `step_eq_refused`. -/
theorem refusalsAreListed : Obligations.RefusalsAreListed := by
  refine ⟨fun i s => ⟨fun r => refusalListed_of_exec, fun ⟨r, hr⟩ => exists_refused_of_listed hr⟩,
    fun s => ⟨fun r hstep => ?refused, fun p hport hinv => ?invalid, fun c i r hport hread hexec =>
      step_eq_refused.2 ⟨c, hport, .inr ⟨i, hread, hexec⟩⟩⟩⟩
  case refused =>
    obtain ⟨c, hport, ⟨why, herror, hr⟩ | ⟨i, hread, hexec⟩⟩ := step_eq_refused.1 hstep
    · obtain ⟨p, rfl, hinv⟩ := readSubmission_eq_error herror
      exact .inl ⟨why, p, hr, hport, hinv⟩
    · exact .inr ⟨c, i, hport, hread, hexec⟩
  case invalid =>
    obtain ⟨why, hwhy⟩ := (invalidPacketsExactly.1 p).2 hinv
    exact ⟨why, step_eq_refused.2 ⟨_, hport, .inl ⟨why, hwhy, rfl⟩⟩⟩

/-! ### The commands that write no bus register (R209) -/

theorem busRegOf_eq_none_iff :
    busRegOf i = none ↔ i.op ∈ [Op.setcol, Op.setpix, Op.clear, Op.setbuf, Op.buflen,
      Op.loadfont, Op.ioerr, Op.setrot] := by
  cases i <;> simp [busRegOf, Instr.op]

/-- Their own refusals apart they complete, whatever `BUSOPEN` is. -/
theorem exec_eq_beforeWrite (hi : busRegOf i = none)
    (hlen : ∀ cols, i = .setbuf cols → 11 ≤ cols.length)
    (hfits : fitsCap s.cfg (askedLength s i) = true) : exec i s = .next (s.beforeWrite i) := by
  cases i with
  | setcol x v => exact exec_setcol_eq_next.2 ⟨hfits, rfl⟩
  | setpix x y v => exact exec_setpix_eq_next.2 ⟨hfits, rfl⟩
  | setbuf cols => exact exec_setbuf_eq_next.2 ⟨hlen cols rfl, hfits, rfl⟩
  | buflen | clear | loadfont f | ioerr | setrot r => rfl
  | _ => simp [busRegOf] at hi

theorem beforeWrite_setBusOpen (hi : busRegOf i = none) (b : Bool) :
    (s.setBusOpen b).beforeWrite i = (s.beforeWrite i).setBusOpen b := by
  cases i with
  | init => simp [busRegOf] at hi
  | _ => rfl

theorem askedLength_setBusOpen (s : State) (b : Bool) (i : Instr) :
    askedLength (s.setBusOpen b) i = askedLength s i := by
  cases i <;> rfl

theorem beforeWrite_busOpen_of_none (hi : busRegOf i = none) :
    (s.beforeWrite i).busOpen = s.busOpen := by
  cases i with
  | init => simp [busRegOf] at hi
  | _ => rfl

theorem op_notMem_of_busRegOf_none (hi : busRegOf i = none) : i.op ∉ busWritersButInit := by
  cases i <;> simp [busRegOf, Instr.op] at hi ⊢

theorem exec_ne_busNotOpen (hi : busRegOf i = none) : exec i s ≠ .refused .busNotOpen := by
  intro h
  obtain ⟨hr, -⟩ | ⟨-, -, hop⟩ | ⟨hr, -⟩ := refusalListed_of_exec h
  · simp at hr
  · exact op_notMem_of_busRegOf_none hi hop
  · simp at hr

/-- Nothing clears `BUSOPEN`. -/
theorem busOpen_of_exec_next (hopen : s.busOpen = true) (h : exec i s = .next t) :
    t.busOpen = true := by
  obtain ⟨-, -, ht, -⟩ := exec_next_registers h
  obtain hb | ⟨-, hb⟩ := beforeWrite_busOpen s i
  · exact ht.trans (hb.trans hopen)
  · exact ht.trans hb

/-- Settles O18: the seven are behind `whenOpen`; the eight are their register changes alone, which
neither read nor write `BUSOPEN`. -/
theorem busWritersRefusedBeforeInit : Obligations.BusWritersRefusedBeforeInit := by
  refine ⟨fun s hclosed => ⟨fun i => exec_of_closed hclosed, fun i hop => ?quiet, ?init⟩,
    fun i s t => busOpen_of_exec_next⟩
  case quiet =>
    have hi := busRegOf_eq_none_iff.2 hop
    refine ⟨exec_ne_busNotOpen hi, fun hlen hcap => ?_⟩
    have hfits : fitsCap s.cfg (askedLength s i) = true := by
      rw [← Bool.not_eq_false, fitsCap_eq_false_iff]
      exact fun ⟨cap, hsome, hlt⟩ => hlt.not_ge (hcap cap hsome)
    refine ⟨s.beforeWrite i, exec_eq_beforeWrite hi hlen hfits,
      (beforeWrite_busOpen_of_none hi).trans hclosed, ?_⟩
    have hopened := exec_eq_beforeWrite (s := s.setBusOpen true) hi hlen
      (by rwa [askedLength_setBusOpen])
    rwa [beforeWrite_setBusOpen hi] at hopened
  case init => exact ⟨_, exec_init_eq_next.2 rfl, State.afterWrite_busOpen ..⟩

/-! ### The conditions of a command (R200, R206) -/

theorem conditions_of_ok (h : s.nextAnswer = .ok) (i : Instr) :
    conditions i s = operandConditions i s := by
  unfold conditions writeConditions
  rw [h]
  cases busRegOf i <;> simp

/-- A failed write is the last condition. -/
theorem conditions_of_fail (h : s.nextAnswer = .fail) (i : Instr) :
    conditions i s = operandConditions i s ++ (busRegOf i).toList.map .transportError := by
  unfold conditions writeConditions
  rw [h]
  cases busRegOf i <;> rfl

theorem mem_conditions {c : Condition} :
    c ∈ conditions i s ↔ c ∈ operandConditions i s
      ∨ s.nextAnswer = .fail ∧ ∃ reg, busRegOf i = some reg ∧ .transportError reg = c := by
  cases h : s.nextAnswer with
  | ok => simp [conditions_of_ok h]
  | fail => simp [conditions_of_fail h]

theorem mem_textConditions {space : Nat} {f : Font} {text : List Nat} {c : Condition} :
    c ∈ textConditions space f text ↔
      ∃ ch ∈ text, ch ≠ space ∧ fontLookup f ch = none ∧ c = .glyphLookupMiss ch := by
  simp [textConditions, and_assoc, eq_comm (a := c)]

theorem mem_graphConditions {values : List Rat} {low high : Option Rat} {c : Condition} :
    c ∈ graphConditions values low high ↔
      ∃ q, values ≠ [] ∧ isLowBound values low q ∧ isHighBound values high q
        ∧ c = .degenerateScalingRange q := by
  cases values with
  | nil => simp [graphConditions]
  | cons v vs =>
    simp only [graphConditions, graphBounds, isLowBound_cons_iff, isHighBound_cons_iff, sub_eq_zero]
    split
    next heq => simp [heq]
    next hne => simpa using fun hq => absurd hq.symm hne

/-- The operands raise a miss for a text and the degenerate range for a graph, nothing else. -/
theorem mem_operandConditions {c : Condition} :
    c ∈ operandConditions i s ↔
      (∃ text x ch, i = .wrstr text x ∧ ch ∈ text ∧ ch ≠ s.cfg.spaceCode
          ∧ fontLookup s.font ch = none ∧ c = .glyphLookupMiss ch)
        ∨ ∃ values low high q, i = .graph values low high ∧ values ≠ []
          ∧ isLowBound values low q ∧ isHighBound values high q
          ∧ c = .degenerateScalingRange q := by
  cases i with
  | wrstr text x => simp [operandConditions, mem_textConditions]
  | graph values low high => simp [operandConditions, mem_graphConditions]
  | _ => simp [operandConditions]

theorem transportError_notMem_operandConditions (i : Instr) (s : State) (reg : BusReg) :
    .transportError reg ∉ operandConditions i s := by
  simp [mem_operandConditions]

theorem transportError_mem_conditions {reg : BusReg} :
    .transportError reg ∈ conditions i s ↔ s.nextAnswer = .fail ∧ busRegOf i = some reg := by
  simp [mem_conditions, transportError_notMem_operandConditions]

theorem glyphLookupMiss_mem_conditions {ch : Nat} :
    .glyphLookupMiss ch ∈ conditions i s ↔
      ∃ text x, i = .wrstr text x ∧ ch ∈ text ∧ ch ≠ s.cfg.spaceCode
        ∧ fontLookup s.font ch = none := by
  simp [mem_conditions, mem_operandConditions]

theorem degenerateScalingRange_mem_conditions {q : Rat} :
    .degenerateScalingRange q ∈ conditions i s ↔
      ∃ values low high, i = .graph values low high ∧ values ≠ []
        ∧ isLowBound values low q ∧ isHighBound values high q := by
  simp [mem_conditions, mem_operandConditions]

/-- The operands raise no `TransportError`, and the write after them at most one. -/
theorem transportError_last {reg : BusReg} {before after : List Condition}
    (h : conditions i s = before ++ .transportError reg :: after) :
    after = [] ∧ before = operandConditions i s := by
  have hmem : .transportError reg ∈ conditions i s := by simp [h]
  obtain ⟨hfail, hreg⟩ := transportError_mem_conditions.1 hmem
  rw [conditions_of_fail hfail, hreg] at h
  obtain ⟨hbefore, -, hafter⟩ := (List.append_cons_inj_of_notMem
    (transportError_notMem_operandConditions i s reg) List.not_mem_nil).1 h
  exact ⟨hafter.symm, hbefore.symm⟩

/-- The one write of a command is in the events it adds (R188), with the transport's answer. -/
theorem exists_failedWrite_iff (h : exec i s = .next t) :
    ∃ new, t.trace = s.trace ++ new
      ∧ ((∃ addr reg bytes, .write addr reg bytes .fail ∈ new)
        ↔ s.nextAnswer = .fail ∧ ∃ reg, busRegOf i = some reg) := by
  obtain ⟨new, htrace, hwrite, -⟩ := busWritesPerCommand i s t h
  have hmem (addr : BitVec 7) (reg : Nat) (bytes : List Byte) :
      .write addr reg bytes .fail ∈ new ↔
        .write addr reg bytes .fail ∈ new.filter Event.isWrite := by
    simp [Event.isWrite]
  refine ⟨new, htrace, ?_⟩
  simp only [hmem, hwrite]
  cases busRegOf i <;> simp [eq_comm (a := BusResult.fail)]

/-- Settles O22: the operands raise the conditions of texts and graphs only; the write after them
raises `TransportError`, and is in the trace. -/
theorem conditionsOfACommand : Obligations.ConditionsOfACommand := by
  intro i s t h
  refine ⟨?transport, fun reg before after hsplit => ?last,
    fun ch => glyphLookupMiss_mem_conditions, fun q => degenerateScalingRange_mem_conditions⟩
  case transport =>
    obtain ⟨new, htrace, hfailed⟩ := exists_failedWrite_iff h
    refine ⟨new, htrace, ?_⟩
    rw [hfailed]
    simp only [transportError_mem_conditions, exists_and_left]
  case last =>
    obtain ⟨hafter, rfl⟩ := transportError_last hsplit
    exact ⟨hafter, transportError_notMem_operandConditions i s⟩

end Sys2Proof.Machine
end

section
/-! PROOFS. Scope: a step with no command handed over (spec/60_exceptions.md section 2, R243). -/

namespace Sys2Proof.Machine

/-- Settles O8: the empty port is the idle case of the step's inversion `step_eq_next`. -/
theorem emptyPortStepIdles : Obligations.EmptyPortStepIdles :=
  fun _ hport => step_eq_next.2 (.inl ⟨hport, rfl⟩)

end Sys2Proof.Machine
end

section
/-! PROOFS. Scope: what one step uses up and appends (spec/20_memory.md section 5), and the invariants
at construction (10_state.md sections 5 and 6). -/

namespace Sys2Proof.Machine

variable {s t : State} {i : Instr}

/-! ### One command, at most one answer of the transport -/

theorem quiet_beforeWrite (s : State) (i : Instr) : s.Quiet (s.beforeWrite i) := by
  cases i <;> exact ⟨rfl, rfl, rfl, rfl⟩

/-- The register changes use no answer, so the write after them uses the one that was next before. -/
theorem answered_afterWrite_beforeWrite (s : State) (i : Instr) (reg : BusReg) (bytes : List Byte) :
    s.Answered ((s.beforeWrite i).afterWrite reg bytes) := by
  obtain ⟨hanswers, hcount, hcfg, hport⟩ := quiet_beforeWrite s i
  simp [State.Answered, hanswers, hcount, hcfg, hport]

/-- A command uses no answer of the transport, or exactly one, for its bus write (R188). -/
theorem quiet_or_answered_of_exec_next (h : exec i s = .next t) : s.Quiet t ∨ s.Answered t := by
  obtain ⟨-, rfl⟩ | ⟨reg, -, rfl⟩ := exec_next_cases h
  · exact .inl (quiet_beforeWrite s i)
  · exact .inr (answered_afterWrite_beforeWrite s i reg _)

/-- A command only appends to the trace (R32). -/
theorem exec_next_appends_trace (h : exec i s = .next t) : s.trace <+: t.trace := by
  refine exec_next_of_beforeWrite (P := fun u => s.trace <+: u.trace) (fun u reg bytes hu => ?write)
    ?before h
  case write =>
    rw [State.afterWrite_trace]
    exact hu.trans (⟨_, rfl⟩)
  case before =>
    rw [beforeWrite_trace]
    exact ⟨_, rfl⟩

/-- Settles O9: the idle step changes nothing, on an empty port; any other takes the submission off
the port and is `exec` from there. -/
theorem stepTakesOneCommand : Obligations.StepTakesOneCommand := by
  intro s t hstep
  obtain ⟨hport, rfl⟩ | ⟨_, _, i, -, -, hexec⟩ := step_eq_next.1 hstep
  case inl => exact ⟨rfl, by rw [hport, List.tail_nil], ⟨[], List.append_nil _⟩, .inl ⟨rfl, rfl⟩⟩
  case inr =>
    have htrace : s.accept.trace <+: t.trace := exec_next_appends_trace hexec
    obtain ⟨hanswers, hcount, hcfg, hport⟩ | ⟨hanswers, hcount, hcfg, hport⟩ :=
      quiet_or_answered_of_exec_next hexec
    · exact ⟨hcfg, hport, htrace, .inl ⟨hanswers, hcount⟩⟩
    · exact ⟨hcfg, hport, htrace, .inr ⟨hanswers, hcount⟩⟩

/-! ### The invariants at construction -/

/-- The register numbers are the images of three numbers under one permutation, so they differ (R7);
capacity and counter are unbounded. -/
theorem Config.wf_initial : Config.initial.wf := by
  have hne {a b : Nat} (h : a ≠ b) :
      Config.openRegNumbering a ≠ Config.openRegNumbering b := Config.openRegNumbering.injective.ne h
  exact ⟨⟨hne (by decide), hne (by decide), hne (by decide)⟩, nofun, nofun⟩

theorem State.inv_reset : State.reset.Inv :=
  ⟨Memory.wf_blank, ⟨le_rfl, by decide⟩, rfl, fontOrdered_fontOfEntries _, nofun, Config.wf_initial⟩

/-- Settles O11: the empty trace holds no failed write, no notice, no opening and no illegal event. -/
theorem resetMeetsInvariants : Obligations.ResetMeetsInvariants := by
  refine ⟨State.inv_reset, ⟨?err, ?notices, ?busOpen⟩, ?traffic⟩
  case err => exact (saturateErr_zero _).symm
  case notices => rfl
  case busOpen => rfl
  case traffic => exact List.forall_mem_nil _

end Sys2Proof.Machine
end

section
/-! PROOFS. Scope: packets written out from the spec (spec/30_encoding.md section 2) and the bytes of a
response (section 4). -/

namespace Sys2Proof.Machine

/-- Settles O5: the decoder evaluates each of the seven packets. -/
theorem writtenPacketsDecode : Obligations.WrittenPacketsDecode :=
  ⟨rfl, rfl, rfl, rfl, rfl, rfl, rfl⟩

/-- Settles O56: the saturated value fits a `u32` field, so its four bytes read back as it. -/
theorem responseBytesSaturate : Obligations.ResponseBytesSaturate := by
  intro v
  have hfits : min v (2 ^ 32 - 1) < 2 ^ 32 := by omega
  exact ⟨_, _, _, _, rfl, u32_bytes hfits⟩

end Sys2Proof.Machine
end

section
/-! PROOFS. Scope: a pixel set and then cleared (spec/40_framebuffer.md R112), the circular window and
its double rotation (41_window.md R130, R132). -/

namespace Sys2Proof.Machine

variable {s t : State} {x : Nat} {y : Fin 8} {v : Bool}

/-! ### A pixel set and then cleared -/

theorem wf_of_exec_setpix (hwf : s.buf.wf) (h : exec (.setpix x y v) s = .next t) : t.buf.wf := by
  obtain ⟨-, rfl⟩ := exec_setpix_eq_next.1 h
  exact Memory.wf_setCol hwf x _

theorem getLsbD_read_of_exec_setpix (hwf : s.buf.wf) (h : exec (.setpix x y v) s = .next t)
    (k : Nat) :
    (t.buf.read x).getLsbD k = if k = y.val then v else (s.buf.read x).getLsbD k := by
  obtain ⟨-, rfl⟩ := exec_setpix_eq_next.1 h
  rw [State.setBuf_buf, Memory.read_setCol_self hwf, getLsbD_pixelColumn]

theorem read_of_exec_setpix_of_ne (hwf : s.buf.wf) (h : exec (.setpix x y v) s = .next t) {i : Nat}
    (hi : i ≠ x) : t.buf.read i = s.buf.read i := by
  obtain ⟨-, rfl⟩ := exec_setpix_eq_next.1 h
  exact Memory.read_setCol_of_ne hwf hi _

/-- Settles O27: the second SETPIX overwrites the one bit the first changed. -/
theorem setpixPairLeavesBitClear : Obligations.SetpixPairLeavesBitClear := by
  intro x y s t u hwf hset hclear
  have hwf' : t.buf.wf := wf_of_exec_setpix hwf hset
  have hbit : (u.buf.read x).getLsbD y.val = false :=
    (getLsbD_read_of_exec_setpix hwf' hclear y.val).trans (if_pos rfl)
  have hkept (k : Nat) (hk : k ≠ y.val) :
      (u.buf.read x).getLsbD k = (s.buf.read x).getLsbD k := by
    rw [getLsbD_read_of_exec_setpix hwf' hclear, if_neg hk,
      getLsbD_read_of_exec_setpix hwf hset, if_neg hk]
  have hother (i : Nat) (hi : i ≠ x) : u.buf.read i = s.buf.read i :=
    (read_of_exec_setpix_of_ne hwf' hclear hi).trans (read_of_exec_setpix_of_ne hwf hset hi)
  refine ⟨hbit, hkept, hother, fun heq => heq ▸ hbit, fun hold => ?_⟩
  refine BitVec.eq_of_getLsbD_eq fun k _ => ?_
  by_cases hk : k = y.val
  · rw [hk, hbit, hold]
  · exact hkept k hk

/-! ### The circular window -/

theorem Memory.getElem?_slice (m : Memory) (i : Nat) {n j : Nat} (h : j < n) :
    (m.slice i n)[j]? = some (m.read (i + j)) := by
  simp [Memory.slice, h]

/-- The second slice of a window that wraps continues where the first ended, at column 0. -/
theorem getElem?_windowOf {m : Memory} {off j : Nat} (hlen : 11 ≤ m.len) (hoff : off < m.len)
    (hj : j < 11) : (windowOf m off)[j]? = some (m.read ((off + j) % m.len)) := by
  by_cases hfit : off + 11 ≤ m.len
  · rw [windowOf_of_le hfit, m.getElem?_slice off hj, Nat.mod_eq_of_lt (by omega)]
  · rw [windowOf_of_lt (by omega), List.getElem?_append, Memory.length_slice]
    split
    next hfirst => rw [m.getElem?_slice off hfirst, Nat.mod_eq_of_lt (by omega)]
    next hsecond =>
      have hwrap : (off + j) % m.len = 0 + (j - (m.len - off)) := by
        rw [Nat.mod_eq_sub_mod (by omega), Nat.mod_eq_of_lt (by omega)]
        omega
      rw [m.getElem?_slice 0 (by omega), hwrap]

/-- Settles O32: congruent positions below 11 are equal, since `LEN` is at least 11. -/
theorem windowReadsCircularly : Obligations.WindowReadsCircularly := by
  intro m off hlen hoff
  refine ⟨fun i hi => getElem?_windowOf hlen hoff hi, fun i j hi hj heq => ?_⟩
  have hmod : i ≡ j [MOD m.len] := Nat.ModEq.add_left_cancel' off heq
  exact hmod.eq_of_lt_of_lt (hi.trans_le hlen) (hj.trans_le hlen)

/-! ### Rotation twice -/

/-- The two reversals cancel, and each column is mirrored twice. -/
theorem rotateWindow_rotateWindow (w : List Byte) :
    rotateWindow (rotateWindow w) = w.map fun c => rotate5 (rotate5 c) := by
  simp [rotateWindow, Function.comp_def]

/-- Settles O35: mirroring twice keeps a column below 32. -/
theorem rotationTwiceRestores : Obligations.RotationTwiceRestores := by
  intro w hw
  calc rotateWindow (rotateWindow w)
    _ = w.map fun c => rotate5 (rotate5 c) := rotateWindow_rotateWindow w
    _ = w.map fun c => c := List.map_congr_left fun c hc => rotate5_rotate5_of_lt (hw c hc)
    _ = w := List.map_id' w

end Sys2Proof.Machine
end

section
/-! PROOFS. Scope: the columns of a character and the font replaced (spec/42_font.md R150, R154), the
level of integers (43_graph.md R165), renders of nothing (44_driver.md R185). -/

namespace Sys2Proof.Machine

/-! ### Text -/

/-- Settles O40: the three cases of R150. -/
theorem characterColumns : Obligations.CharacterColumns := fun space f _ =>
  ⟨fun hspace => hspace ▸ charColumns_space space f, charColumns_of_lookup_none,
    fun _ => charColumns_of_lookup_some⟩

/-- Settles O44: the canonical list denotes the operand's map, and is the operand where that is
canonical. -/
theorem loadfontReplacesMap : Obligations.LoadfontReplacesMap := fun f s =>
  ⟨⟨rfl, rfl⟩, _, exec_loadfont_eq_next.2 rfl, fontLookup_fontOfEntries f,
    fontOrdered_fontOfEntries f, fontOfEntries_of_ordered, s.setFont_frame _⟩

/-! ### The level of integers -/

theorem mul_tdiv_mul_of_ne_zero {c : Int} (hc : c ≠ 0) (a b : Int) :
    (c * a).tdiv (c * b) = a.tdiv b := by
  obtain hneg | hpos := lt_or_gt_of_ne hc
  · rw [← Int.neg_tdiv_neg, ← neg_mul, ← neg_mul, Int.mul_tdiv_mul_of_pos a b (neg_pos.2 hneg)]
  · exact Int.mul_tdiv_mul_of_pos a b hpos

/-- Reducing a fraction to lowest terms does not change its integer part (R9). -/
theorem truncRat_div (a : Int) {b : Int} (hb : b ≠ 0) : truncRat ((a : Rat) / b) = a.tdiv b := by
  obtain ⟨c, ha, hbc⟩ := Rat.num_den_mk hb (Rat.intCast_div_eq_divInt a b)
  have hc : c ≠ 0 := by
    rintro rfl
    exact hb (hbc.trans (zero_mul _))
  calc truncRat ((a : Rat) / b)
    _ = (c * ((a : Rat) / b).num).tdiv (c * ((a : Rat) / b).den) :=
        (mul_tdiv_mul_of_ne_zero hc _ _).symm
    _ = a.tdiv b := by rw [← ha, ← hbc]

/-- Settles O47: the scaled quotient is one fraction of integers. -/
theorem graphLevelOfIntegers : Obligations.GraphLevelOfIntegers := by
  intro low high v hne
  have hspan : high - low ≠ 0 := sub_ne_zero.2 hne
  have hquot : ((v : Rat) - low) / (high - low) * 5
      = ((5 * (v - low) : Int) : Rat) / (high - low : Int) := by
    push_cast
    ring
  rw [graphLevel_of_span_ne_zero (by exact_mod_cast hspan), hquot, truncRat_div _ hspan]

/-! ### Renders of nothing, and a scroll by 0 -/

/-- The refusals of a render that asks for no column are those of its push (R206). -/
theorem whenOpen_whenFits_zero_push (s : State) : whenOpen s (whenFits s 0 (push s)) = push s := by
  rw [whenFits_of_fits (fitsCap_zero s.cfg)]
  cases hopen : s.busOpen with
  | false => exact (whenOpen_of_closed hopen _).trans (whenOpen_of_closed hopen _).symm
  | true => exact whenOpen_of_open hopen _

/-- Settles O43: a render of nothing writes the buffer it found, a scroll by 0 the offset it found. -/
theorem emptyRendersEqualUpdate : Obligations.EmptyRendersEqualUpdate := by
  intro s
  refine ⟨fun x => whenOpen_whenFits_zero_push s, fun low high => whenOpen_whenFits_zero_push s,
    fun hoff => ?_⟩
  have hkept : floorMod (s.off + 0) s.buf.len = s.off := by
    rw [add_zero, floorMod_natCast, Nat.mod_eq_of_lt hoff]
  exact congrArg (fun off => push (s.setOff off)) hkept

end Sys2Proof.Machine
end
